-- ==== Sys2Proof/Word.lean ====
section
/-! DEFINITION. The fixed-width words of the block (00_scope.md R5, R9; 30_encoding.md R60). -/

namespace Sys2Proof

/-- One byte of the framebuffer or of the output stream. -/
abbrev Byte := BitVec 8

/-- A segment word: bits 13:0 segments, bit 14 the decimal point, bit 15 unused (10_state.md R23). -/
abbrev SegWord := BitVec 16

/-- A value of one of the two 32-bit command ports `cmd` and `cmd_data` (30_encoding.md R60). -/
abbrev Word := BitVec 32

/-- `DP_MASK`, the decimal-point bit of a segment word (00_scope.md R5). -/
abbrev dpMask : SegWord := 0x4000#16

end Sys2Proof
end

