-- ==== Sys2Proof/Syntax.lean ====
section
/-! DEFINITION. The commands of `HPF-CMD v1` (30_encoding.md R69) and the assembler's lines (R77, R78). -/

namespace Sys2Proof

/-- The three colors of FB_SET_PIXEL (30_encoding.md R68). -/
inductive Color where
  | black
  | white
  | inverse
  deriving DecidableEq, Repr

/-- One constructor per row of the opcode table. Operand fields are unsigned numbers (30_encoding.md R75); a temperature
is a signed number of centi-degrees Fahrenheit (R64). Their ranges are `Instr.wellFormed`'s (log 11). -/
inductive Instr where
  /-- FSM_CHECK (40_phase_fsm.md R84) -/
  | fsmCheck (temp : Int)
  /-- AN_CLEAR (41_alnum_encoder.md R93) -/
  | anClear
  /-- AN_WRITE_DIGIT (R94) -/
  | anWriteDigit (pos : Nat) (dp : Bool) (val : Nat)
  /-- AN_WRITE_ASCII (R95) -/
  | anWriteAscii (pos : Nat) (dp : Bool) (val : Nat)
  /-- AN_FORMAT_TEMP (R96) -/
  | anFormatTemp (temp : Int)
  /-- AN_SERIALIZE (R101) -/
  | anSerialize
  /-- AN_CMD_BLINK (R102) -/
  | anCmdBlink (val : Nat)
  /-- AN_CMD_BRIGHTNESS (R103) -/
  | anCmdBrightness (val : Nat)
  /-- FB_CONFIGURE (42_framebuffer.md R115) -/
  | fbConfigure (w h : Nat)
  /-- FB_SET_PIXEL (R117) -/
  | fbSetPixel (x y : Nat) (color : Color)
  /-- FB_SERIALIZE (R119) -/
  | fbSerialize
  deriving DecidableEq, Repr

/-- What one assembler line spells: a command, or one of the pseudo-instructions of 30_encoding.md R78. -/
inductive AsmLine where
  | instr (i : Instr)
  | fbSet (x y : Nat)
  | fbClr (x y : Nat)
  | fbInv (x y : Nat)
  | anChar (pos : Nat) (c : Char) (dp : Bool)
  deriving DecidableEq, Repr

end Sys2Proof
end

