-- ==== Sys2Proof/WellFormed.lean ====
section
/-! DEFINITION. When every operand of a command fits its field (30_encoding.md R62 to R68). An operand that does not fit
is an assembler error and is never truncated into the field (R77). -/

namespace Sys2Proof

/-- A temperature fits the signed 32-bit operand `cmd_data` (30_encoding.md R64). -/
abbrev fitsTemp (t : Int) : Prop := -2 ^ 31 ≤ t ∧ t < 2 ^ 31

/-- A number fits an unsigned field of `n` bits (30_encoding.md R75). -/
abbrev fitsField (n v : Nat) : Prop := v < 2 ^ n

/-- Every operand fits its field. Whether a field's value is in range for the command (a position below 8, a digit up to
9, a supported geometry) is the command's own check, not this one (30_encoding.md R75). -/
def Instr.wellFormed (i : Instr) : Bool :=
  match i with
  | .fsmCheck t | .anFormatTemp t => decide (fitsTemp t)
  | .anClear | .anSerialize | .fbSerialize => true
  | .anWriteDigit pos _ val | .anWriteAscii pos _ val => decide (fitsField 4 pos) && decide (fitsField 8 val)
  | .anCmdBlink val | .anCmdBrightness val => decide (fitsField 8 val)
  | .fbConfigure w h => decide (fitsField 8 w) && decide (fitsField 8 h)
  | .fbSetPixel x y _ => decide (fitsField 8 x) && decide (fitsField 8 y)

end Sys2Proof
end

