-- ==== Sys2Proof/Decode.lean ====
section
/-! DEFINITION. The command words: the six formats, the opcode map, the decoder and the encoder
(30_encoding.md R60 to R76), and the host's view of one table word. -/

namespace Sys2Proof

/-- The six formats (30_encoding.md R62): no operand, temperature, alphanumeric write, value, geometry, pixel. -/
inductive Format where
  | N | T | A | V | G | P
  deriving DecidableEq, Repr

/-- The eleven opcodes of the map (30_encoding.md R69). -/
inductive Opcode where
  | fsmCheck | anClear | anWriteDigit | anWriteAscii | anFormatTemp | anSerialize
  | anCmdBlink | anCmdBrightness | fbConfigure | fbSetPixel | fbSerialize
  deriving DecidableEq, Repr

/-- The code of each opcode, `cmd[31:28]` (30_encoding.md R61, R69). -/
def Opcode.code : Opcode → BitVec 4
  | .fsmCheck => 0x1#4
  | .anClear => 0x2#4
  | .anWriteDigit => 0x3#4
  | .anWriteAscii => 0x4#4
  | .anFormatTemp => 0x5#4
  | .anSerialize => 0x6#4
  | .anCmdBlink => 0x7#4
  | .anCmdBrightness => 0x8#4
  | .fbConfigure => 0x9#4
  | .fbSetPixel => 0xA#4
  | .fbSerialize => 0xB#4

/-- The opcode of a code; codes `0x0` and `0xC` to `0xF` are reserved (30_encoding.md R69, R71). -/
def Opcode.ofCode (c : BitVec 4) : Option Opcode :=
  match c.toNat with
  | 0x1 => some .fsmCheck
  | 0x2 => some .anClear
  | 0x3 => some .anWriteDigit
  | 0x4 => some .anWriteAscii
  | 0x5 => some .anFormatTemp
  | 0x6 => some .anSerialize
  | 0x7 => some .anCmdBlink
  | 0x8 => some .anCmdBrightness
  | 0x9 => some .fbConfigure
  | 0xA => some .fbSetPixel
  | 0xB => some .fbSerialize
  | _ => none

/-- The format of each opcode (30_encoding.md R69). -/
def Opcode.format : Opcode → Format
  | .fsmCheck | .anFormatTemp => .T
  | .anClear | .anSerialize | .fbSerialize => .N
  | .anWriteDigit | .anWriteAscii => .A
  | .anCmdBlink | .anCmdBrightness => .V
  | .fbConfigure => .G
  | .fbSetPixel => .P

/-- The bits of `cmd` a format requires to be zero (30_encoding.md R70 `reserved_mask`). -/
def reservedMask : Format → Word
  | .N | .T => 0x0FFFFFFF#32
  | .A => 0x007FFF00#32
  | .V => 0x0FFFFF00#32
  | .G => 0x0FFF0000#32
  | .P => 0x0FFC0000#32

/-- The codes of the colors (30_encoding.md R68). -/
def Color.code : Color → BitVec 2
  | .black => 0b00#2
  | .white => 0b01#2
  | .inverse => 0b10#2

/-- The color of a code; `0b11` is none (30_encoding.md R68, R73). -/
def Color.ofCode (c : BitVec 2) : Option Color :=
  match c.toNat with
  | 0b00 => some .black
  | 0b01 => some .white
  | 0b10 => some .inverse
  | _ => none

/-- Why a word is not a command (30_encoding.md R70 to R73). Each of them gives the status ILLEGAL. -/
inductive DecodeError where
  /-- `OPC` is `0x0` or `0xC` to `0xF` (R71) -/
  | reservedOpcode
  /-- a legal opcode with a reserved bit set (R72) -/
  | reservedBit
  /-- FB_SET_PIXEL with `COLOR = 0b11` (R73) -/
  | reservedColor
  deriving DecidableEq, Repr

/-- `cmd[lo+n-1 : lo]` as an unsigned number (00_scope.md R9, 30_encoding.md R75). -/
def fieldOf (cmd : Word) (lo n : Nat) : Nat := (cmd.extractLsb' lo n).toNat

/-- `OPC`, `cmd[31:28]` in every format (30_encoding.md R61). -/
def opcOf (cmd : Word) : BitVec 4 := cmd.extractLsb' 28 4

/-- `POS`, `cmd[27:24]` of format A (30_encoding.md R65). -/
def posOf (cmd : Word) : Nat := fieldOf cmd 24 4

/-- `DP`, `cmd[23]` of format A (30_encoding.md R65). -/
def dpOf (cmd : Word) : Bool := cmd.getLsbD 23

/-- `VAL`, `cmd[7:0]` of formats A and V (30_encoding.md R65, R66). -/
def valOf (cmd : Word) : Nat := fieldOf cmd 0 8

/-- `cmd[7:0]`, which is `W` of format G and `X` of format P (30_encoding.md R67, R68). -/
def xOf (cmd : Word) : Nat := fieldOf cmd 0 8

/-- `cmd[15:8]`, which is `H` of format G and `Y` of format P (30_encoding.md R67, R68). -/
def yOf (cmd : Word) : Nat := fieldOf cmd 8 8

/-- `COLOR`, `cmd[17:16]` of format P (30_encoding.md R68). -/
def colorOf (cmd : Word) : BitVec 2 := cmd.extractLsb' 16 2

/-- `TEMP`: `cmd_data` as a signed number (30_encoding.md R64). -/
def tempOf (data : Word) : Int := data.toInt

/-- The decoder, total on every pair of words (30_encoding.md R70). `cmd_data` is read by format T only (R74). -/
def decode (cmd data : Word) : Except DecodeError Instr :=
  match Opcode.ofCode (opcOf cmd) with
  | none => .error .reservedOpcode
  | some op =>
    if cmd &&& reservedMask op.format ≠ 0#32 then .error .reservedBit
    else
      match op with
      | .fsmCheck => .ok (.fsmCheck (tempOf data))
      | .anClear => .ok .anClear
      | .anWriteDigit => .ok (.anWriteDigit (posOf cmd) (dpOf cmd) (valOf cmd))
      | .anWriteAscii => .ok (.anWriteAscii (posOf cmd) (dpOf cmd) (valOf cmd))
      | .anFormatTemp => .ok (.anFormatTemp (tempOf data))
      | .anSerialize => .ok .anSerialize
      | .anCmdBlink => .ok (.anCmdBlink (valOf cmd))
      | .anCmdBrightness => .ok (.anCmdBrightness (valOf cmd))
      | .fbConfigure => .ok (.fbConfigure (xOf cmd) (yOf cmd))
      | .fbSetPixel =>
        match Color.ofCode (colorOf cmd) with
        | none => .error .reservedColor
        | some c => .ok (.fbSetPixel (xOf cmd) (yOf cmd) c)
      | .fbSerialize => .ok .fbSerialize

/-- The opcode of a command (30_encoding.md R69). -/
def Instr.opcode : Instr → Opcode
  | .fsmCheck _ => .fsmCheck
  | .anClear => .anClear
  | .anWriteDigit _ _ _ => .anWriteDigit
  | .anWriteAscii _ _ _ => .anWriteAscii
  | .anFormatTemp _ => .anFormatTemp
  | .anSerialize => .anSerialize
  | .anCmdBlink _ => .anCmdBlink
  | .anCmdBrightness _ => .anCmdBrightness
  | .fbConfigure _ _ => .fbConfigure
  | .fbSetPixel _ _ _ => .fbSetPixel
  | .fbSerialize => .fbSerialize

/-- A command word of formats N and T (30_encoding.md R63, R64). -/
def wordN (op : Opcode) : Word := op.code ++ 0#28

/-- A command word of format A (30_encoding.md R65). -/
def wordA (op : Opcode) (pos : Nat) (dp : Bool) (val : Nat) : Word :=
  op.code ++ BitVec.ofNat 4 pos ++ BitVec.ofBool dp ++ 0#15 ++ BitVec.ofNat 8 val

/-- A command word of format V (30_encoding.md R66). -/
def wordV (op : Opcode) (val : Nat) : Word := op.code ++ 0#20 ++ BitVec.ofNat 8 val

/-- A command word of format G (30_encoding.md R67). -/
def wordG (op : Opcode) (w h : Nat) : Word := op.code ++ 0#12 ++ BitVec.ofNat 8 h ++ BitVec.ofNat 8 w

/-- A command word of format P (30_encoding.md R68). -/
def wordP (op : Opcode) (x y : Nat) (c : Color) : Word :=
  op.code ++ 0#10 ++ c.code ++ BitVec.ofNat 8 y ++ BitVec.ofNat 8 x

/-- The encoder: the two words `(cmd, cmd_data)` of a well-formed command (30_encoding.md R62 to R69). A command that
does not read `cmd_data` is given zero there (R74, log 12). -/
def encode (i : Instr) : Word × Word :=
  match i with
  | .fsmCheck t | .anFormatTemp t => (wordN i.opcode, BitVec.ofInt 32 t)
  | .anClear | .anSerialize | .fbSerialize => (wordN i.opcode, 0#32)
  | .anWriteDigit pos dp val | .anWriteAscii pos dp val => (wordA i.opcode pos dp val, 0#32)
  | .anCmdBlink val | .anCmdBrightness val => (wordV i.opcode val, 0#32)
  | .fbConfigure w h => (wordG i.opcode w h, 0#32)
  | .fbSetPixel x y c => (wordP i.opcode x y c, 0#32)

/-- The assembler's word for a command: none when an operand does not fit its field (30_encoding.md R77). -/
def assemble (i : Instr) : Option (Word × Word) := if i.wellFormed then some (encode i) else none

/-- The bits of a table word laid out as the two command words: `cmd` is bits 31:0 and `cmd_data` bits 63:32; every bit
from `nbits` up is zero (log 8). -/
def tableWords (nbits w : Nat) : Word × Word :=
  (BitVec.ofNat 32 (w % 2 ^ nbits), BitVec.ofNat 32 (w % 2 ^ nbits / 2 ^ 32))

/-- The instruction the decoder reads from a word of the opcode table. -/
def decodeTableWord (nbits w : Nat) : Option Instr :=
  match decode (tableWords nbits w).1 (tableWords nbits w).2 with
  | .ok i => some i
  | .error _ => none

end Sys2Proof
end

