-- ==== Sys2Proof/Config.lean ====
section
/-! DEFINITION. The implementation parameters of 00_scope.md R5, their constraints (R5, R7), and the one
configuration the machine is built with, which no source gives (log 1). -/

namespace Sys2Proof

/-- A panel geometry `(w, h)` (42_framebuffer.md R110). -/
structure Geometry where
  w : Nat
  h : Nat
  deriving DecidableEq, Repr

/-- The OPEN parameters of 00_scope.md R5, before their constraints are checked. Temperatures are signed 32-bit
centi-degrees Fahrenheit (R8). -/
structure RawParams where
  /-- `P_ON` -/
  on : Word
  /-- `P_OFF` -/
  off : Word
  /-- `P_HYST` -/
  hyst : Word
  /-- `P_UPPER`, whole degrees Fahrenheit -/
  upper : Nat
  /-- `P_FONT`, one word for each character code 0..127 -/
  font : Vector SegWord 128
  /-- `P_GEOMS` -/
  geoms : List Geometry
  /-- `P_FB_TAG` -/
  fbTag : Byte
  /-- `T_LAT`; no rule reads it (70_reset_and_hazards.md R157) -/
  tLat : Nat
  deriving DecidableEq, Repr

/-- The constraints of 00_scope.md R5: `P_OFF > P_ON`, `P_HYST > 0`, `100 < P_UPPER <= 1000`, three distinct geometries
with sides 1..255 of which `(64, 64)` is none, and `T_LAT` at least 1. -/
abbrev RawParams.ok (r : RawParams) : Prop :=
  r.on.toInt < r.off.toInt ∧ 0 < r.hyst.toInt ∧ (100 < r.upper ∧ r.upper ≤ 1000) ∧
  r.geoms.length = 3 ∧ r.geoms.Nodup ∧
  (∀ g ∈ r.geoms, 1 ≤ g.w ∧ g.w ≤ 255 ∧ 1 ≤ g.h ∧ g.h ≤ 255) ∧
  (⟨64, 64⟩ : Geometry) ∉ r.geoms ∧ 1 ≤ r.tLat

/-- The test devices of 95_test_vectors.md section 0: the font TF, the thresholds TP, the bound U600 and the geometry set
GEO3 (with the informative tag byte of 00_scope.md R6). They are values of no real build: this model's own tests use
them, and they show that `Params` has a member. -/
def RawParams.testBench : RawParams where
  on := 15000#32
  off := 30000#32
  hyst := 500#32
  upper := 600
  font := ⟨((List.range 128).map (BitVec.ofNat 16)).toArray, by simp⟩
  geoms := [⟨128, 64⟩, ⟨128, 32⟩, ⟨96, 16⟩]
  fbTag := 0x40#8
  tLat := 1

/-- A configuration that meets its constraints. One that breaks them cannot be built, so there is no machine for it
(00_scope.md R7). -/
structure Params where
  raw : RawParams := RawParams.testBench
  ok : raw.ok := by decide
  deriving DecidableEq, Repr, Inhabited

/-- `Params.testBench` is the configuration of the test vectors. -/
def Params.testBench : Params := ⟨RawParams.testBench, by decide⟩

/-- Building a configuration: refused when a constraint fails (00_scope.md R7). -/
def Params.build (r : RawParams) : Option Params :=
  if h : r.ok then some ⟨r, h⟩ else none

/-- FREE VALUE (log 1): the configuration of the block at hand. Every value of the parameters is OPEN (00_scope.md R5), so
nothing is known of this constant but that it meets the constraints. -/
opaque Config.params : Params

end Sys2Proof
end

