-- ==== Sys2Proof/Machine/State.lean ====
section
/-! DEFINITION. Everything the spec gives the block: the state elements of 10_state.md R20, what a command in progress
holds (R29, R30), the configuration (00_scope.md R5), and the outside world's side of the ports (R28). -/

namespace Sys2Proof.Machine

/-- The OvenPhase of `S.phase` (10_state.md R22). -/
inductive Phase where
  | off
  | heatingUp
  | atTemp
  | coolingDown
  deriving DecidableEq, Repr

/-- The status of a command (60_exceptions.md R130). -/
inductive Status where
  | ok
  | illegal
  | bounds
  | construction
  | notConfigured
  deriving DecidableEq, Repr

/-- The channel tags in use (10_state.md R27); tag 3 is never emitted. -/
inductive Chan where
  | alnum
  | framebuffer
  | command
  deriving DecidableEq, Repr

/-- One byte of the output stream with its `out_chan` and `out_last` (10_state.md R27). -/
structure StreamByte where
  chan : Chan
  byte : Byte
  last : Bool
  deriving DecidableEq, Repr

/-- The response of a command (10_state.md R26). -/
structure Response where
  status : Status
  changed : Bool
  phase : Phase
  deriving DecidableEq, Repr

/-- The input ports at one rising edge of `clk` (10_state.md R28). -/
structure Pins where
  rst : Bool
  cmdValid : Bool
  cmd : Word
  cmdData : Word
  outReady : Bool
  rspReady : Bool
  deriving DecidableEq, Repr

/-- `S.AN`, the eight segment words (10_state.md R23). -/
abbrev AnBuffer := Vector SegWord 8

/-- `S.FB` as the bytes that differ from their reset content, addresses rising (20_memory.md R40, log 3). -/
abbrev Memory := List Host.Cell

/-- The block, its command in progress and the outside world's side of its ports. -/
structure State where
  /-- the parameters the block was built with, fixed for its life (00_scope.md R5, 10_state.md R20, R33) -/
  params : Params
  /-- `S.phase` (R22) -/
  phase : Phase
  /-- `S.AN` (R23) -/
  an : AnBuffer
  /-- `S.FB` (R24) -/
  fb : Memory
  /-- `S.cfg_valid` (R25) -/
  cfgValid : Bool
  /-- `S.cfg_w` (R25) -/
  cfgW : Byte
  /-- `S.cfg_h` (R25) -/
  cfgH : Byte
  /-- `S.busy` (R30) -/
  busy : Bool
  /-- the stream bytes of the command in progress that no receiver has taken yet, first to go first (R29) -/
  pendingBytes : List StreamByte
  /-- the response of the command in progress (R29) -/
  pendingResponse : Option Response
  /-- MODEL'S OWN: the input ports at the rising edges to come (log 2) -/
  inputs : List Pins
  /-- MODEL'S OWN: the bytes the receiver has taken, oldest first (70_reset_and_hazards.md R158, log 5) -/
  sentBytes : List StreamByte
  /-- MODEL'S OWN: the responses the host has taken, oldest first (70_reset_and_hazards.md R158, log 5) -/
  takenResponses : List Response
  /-- MODEL'S OWN: the first programming error of the host, kept for good (60_exceptions.md R143, log 6) -/
  faultRecord : Option Status
  deriving DecidableEq, Repr

/-- Why the machine stops. -/
inductive Fault where
  /-- Raised by FB_SET_PIXEL when the pixel index of 20_memory.md R44 lies outside `0..FB_BYTES-1`, where there is no byte
  (R40). Only a state whose configured geometry is none of `P_GEOMS` can raise it, and no command makes one (R46). Safe:
  the model stops where the spec has no byte to write (log 9). -/
  | fbIndexOutside
  deriving DecidableEq, Repr

/-- Why the machine has no meaning for a command. -/
inductive Refusal where
  /-- Raised by an arm of `exec` whose instruction has no meaning yet. Safe. No arm raises it. -/
  | notModelled (mnemonic : String)
  deriving DecidableEq, Repr

/-- The block right after reset, for any configuration (70_reset_and_hazards.md R150). -/
def State.resetWith (P : Params) : State where
  params := P
  phase := .atTemp
  an := Vector.replicate 8 0#16
  fb := []
  cfgValid := false
  cfgW := 0#8
  cfgH := 0#8
  busy := false
  pendingBytes := []
  pendingResponse := none
  inputs := []
  sentBytes := []
  takenResponses := []
  faultRecord := none

/-- The block at hand right after reset, with nothing offered at its ports. Its configuration is the free value
`Config.params` (log 1). -/
def State.reset : State := State.resetWith Config.params

end Sys2Proof.Machine
end

