-- ==== Sys2Proof/Machine/Flags.lean ====
section
/-! DEFINITION. What a command reports. The block has no status flags or condition codes (10_state.md R31): the outcome
bits are the fields of the response (R26) and the tags of the output stream (R27), computed here. -/

namespace Sys2Proof.Machine

/-- The code of each phase (10_state.md R22). -/
def Phase.code : Phase → BitVec 2
  | .off => 0b00#2
  | .heatingUp => 0b01#2
  | .atTemp => 0b10#2
  | .coolingDown => 0b11#2

/-- The code of each status; codes 5 to 7 are never returned (60_exceptions.md R130). -/
def Status.code : Status → BitVec 3
  | .ok => 0#3
  | .illegal => 1#3
  | .bounds => 2#3
  | .construction => 3#3
  | .notConfigured => 4#3

/-- The code of each channel (10_state.md R27). -/
def Chan.code : Chan → BitVec 2
  | .alnum => 0#2
  | .framebuffer => 1#2
  | .command => 2#2

/-- The statuses that are a programming error of the host (60_exceptions.md R143). CONSTRUCTION is treated as an ordinary
outcome, which R143 allows (log 6). -/
def Status.isHostError : Status → Bool
  | .illegal | .bounds | .notConfigured => true
  | .ok | .construction => false

/-- The fault record after a command ends with a status: the first programming error is kept, and nothing clears it
(60_exceptions.md R143). -/
def recordFault (st : Status) (rec : Option Status) : Option Status :=
  match rec with
  | some e => some e
  | none => if st.isHostError then some st else none

/-- The bytes of one payload tagged for the stream: all on one channel, `out_last` on the last of them only
(10_state.md R27). -/
def tagBytes (c : Chan) : List Byte → List StreamByte
  | [] => []
  | [b] => [⟨c, b, true⟩]
  | b :: rest => ⟨c, b, false⟩ :: tagBytes c rest

end Sys2Proof.Machine
end

