-- ==== Sys2Proof/Machine/Ops.lean ====
section
/-! DEFINITION. The named operations over the block's state: reading and writing the two buffers, ending a command with a
response, and refusing one with a status. -/

namespace Sys2Proof.Machine

/-! ## The size of the framebuffer (00_scope.md R5) -/

/-- `MAX_W`, the largest width in `P_GEOMS`. -/
def maxW (P : Params) : Nat := (P.raw.geoms.map Geometry.w).foldr max 0

/-- `MAX_H`, the largest height in `P_GEOMS`. -/
def maxH (P : Params) : Nat := (P.raw.geoms.map Geometry.h).foldr max 0

/-- `ceil(h / 8)`, the pages that hold `h` rows. -/
def pagesOf (h : Nat) : Nat := (h + 7) / 8

/-- `FB_BYTES = 1 + ceil(MAX_H / 8) * MAX_W`. -/
def fbBytes (P : Params) : Nat := 1 + pagesOf (maxH P) * maxW P

/-! ## The framebuffer memory -/

/-- What a byte of `FB` that no write has changed reads as: the reset content, the tag in byte 0 and `0x00` above
(70_reset_and_hazards.md R150). -/
def fbUnlisted (tag : Byte) (a : Nat) : Byte := if a = 0 then tag else 0x00#8

/-- The canonical form: addresses strictly rise, each is one of `0..size-1`, and no entry repeats the reset content. -/
def Memory.wf (tag : Byte) (size : Nat) (m : Memory) : Bool :=
  decide (m.Pairwise (fun p q => p.1 < q.1)) && m.all (fun p => decide (p.1 < size) && decide (p.2 ≠ fbUnlisted tag p.1))

/-- Reads one byte. -/
def Memory.read (tag : Byte) (m : Memory) (a : Nat) : Byte :=
  match m with
  | [] => fbUnlisted tag a
  | (b, v) :: rest => if b = a then v else Memory.read tag rest a

/-- A cell to be listed, or nothing where the byte equals its reset content. -/
def Memory.cell (tag : Byte) (a : Nat) (v : Byte) : Memory := if v = fbUnlisted tag a then [] else [(a, v)]

/-- Writes one byte and keeps the canonical form. -/
def Memory.write (tag : Byte) (m : Memory) (a : Nat) (v : Byte) : Memory :=
  match m with
  | [] => Memory.cell tag a v
  | (b, u) :: rest =>
    if a < b then Memory.cell tag a v ++ (b, u) :: rest
    else if a = b then Memory.cell tag a v ++ rest
    else (b, u) :: Memory.write tag rest a v

/-- Every byte but the tag becomes `0x00`, its reset content (42_framebuffer.md R115). -/
def Memory.clearPixels (m : Memory) : Memory := m.filter (fun p => decide (p.1 = 0))

/-! ## Accessors of the state -/

/-- Reads byte `a` of `S.FB`. -/
def State.fbRead (s : State) (a : Nat) : Byte := Memory.read s.params.raw.fbTag s.fb a

/-- `MemRead(FB, a, n)`: `n` bytes from index `a`, lowest index first (00_scope.md R10). -/
def State.fbReadBytes (s : State) (a n : Nat) : List Byte := (List.range' a n).map s.fbRead

/-- Reads byte `a` of `S.FB`, changes it and writes it back (20_memory.md R50): none where there is no such byte (R40). -/
def State.fbModify (s : State) (a : Nat) (f : Byte → Byte) : Option State :=
  if a < fbBytes s.params then
    some { s with fb := Memory.write s.params.raw.fbTag s.fb a (f (s.fbRead a)) }
  else none

/-- All pixel bytes become `0x00` (42_framebuffer.md R115). -/
def State.fbClearPixels (s : State) : State := { s with fb := Memory.clearPixels s.fb }

/-- The accepted geometry (42_framebuffer.md R115). -/
def State.setGeometry (s : State) (w h : Nat) : State :=
  { s with cfgValid := true, cfgW := BitVec.ofNat 8 w, cfgH := BitVec.ofNat 8 h }

/-- `S.phase <- q`, which only FSM_CHECK and reset do (10_state.md R22). -/
def State.setPhase (s : State) (q : Phase) : State := { s with phase := q }

/-- `S.AN[p] <- w`, the whole word (20_memory.md R41). -/
def State.anWrite (s : State) (p : Fin 8) (w : SegWord) : State := { s with an := s.an.set p w }

/-- All eight words become `0x0000` (41_alnum_encoder.md R93). -/
def State.anClear (s : State) : State := { s with an := Vector.replicate 8 0#16 }

/-- Byte `j` of the byte view of `AN`: the low byte of a word first (20_memory.md R42). -/
def anByte (an : AnBuffer) (j : Fin 16) : Byte :=
  let w := an[j.val / 2]
  if j.val % 2 = 0 then w.extractLsb' 0 8 else w.extractLsb' 8 8

/-- `MemRead(AN, 0, 16)` (20_memory.md R42). -/
def anBytes (an : AnBuffer) : List Byte := (List.finRange 16).map (anByte an)

/-! ## Ending a command -/

/-- A command is accepted and done: the block is busy with its stream bytes and then its response, whose `phase` is the
phase after the command (10_state.md R26, R29, R30). The command's writes stand from the acceptance edge on (log 7). -/
def finish (bytes : List StreamByte) (st : Status) (changed : Bool) (s : State) : State :=
  { s with busy := true, pendingBytes := bytes, pendingResponse := some ⟨st, changed, s.phase⟩ }

/-- `respond(OK, changed, S.phase)` of a command with no stream bytes (00_scope.md R10). -/
def respond (changed : Bool) (s : State) : State := finish [] .ok changed s

/-- `emit(chan, bytes)` and then `respond(OK, 0, S.phase)` (00_scope.md R10). -/
def emit (c : Chan) (bytes : List Byte) (s : State) : State := finish (tagBytes c bytes) .ok false s

/-- `raise <Status>`: the block's ONE way to turn a command away. No state element is written, nothing is emitted and the
response carries the status (60_exceptions.md R131). The block has no trap entry, no saved state, no vector and no return
from one (R140). The fault record is the model's own (R143). -/
def raise (st : Status) (s : State) : State :=
  finish [] st false { s with faultRecord := recordFault st s.faultRecord }

end Sys2Proof.Machine
end

