-- ==== Sys2Proof/Machine/Operands.lean ====
section
/-! DEFINITION. How each operand form is read: positions, digits, character codes, glyphs, decimal places, geometries,
pixels and colors (30_encoding.md R75, 41_alnum_encoder.md R90, R91, 42_framebuffer.md R110 to R113). -/

namespace Sys2Proof.Machine

/-- The position of a write: none from 8 up (41_alnum_encoder.md R91). -/
def positionOperand (pos : Nat) : Option (Fin 8) := if h : pos < 8 then some ⟨pos, h⟩ else none

/-- The ASCII code of a decimal digit, `0x30 + d` (41_alnum_encoder.md R94). -/
def digitCode (d : Fin 10) : Fin 128 := ⟨0x30 + d.val, by omega⟩

/-- The character code of a digit operand: none above 9 (41_alnum_encoder.md R94). -/
def digitOperand (val : Nat) : Option (Fin 128) := if h : val < 10 then some (digitCode ⟨val, h⟩) else none

/-- The character code of a character operand: none above 127 (41_alnum_encoder.md R95). -/
def charOperand (val : Nat) : Option (Fin 128) := if h : val < 128 then some ⟨val, h⟩ else none

/-- `glyph(c, dp) = P_FONT[c] | (dp ? DP_MASK : 0)`, all 16 bits of the font entry kept (41_alnum_encoder.md R90, R92). -/
def glyph (P : Params) (c : Fin 128) (dp : Bool) : SegWord := P.raw.font[c] ||| (if dp then dpMask else 0#16)

/-- The decimal digit of `t >= 0` at place `10^k`, by truncating division (41_alnum_encoder.md R98, R104). -/
def digitAt (t : Int) (k : Nat) : Fin 10 := ⟨t.toNat / 10 ^ k % 10, Nat.mod_lt _ (by decide)⟩

/-- `supported(w, h)` (42_framebuffer.md R110). -/
def supported (P : Params) (w h : Nat) : Bool := decide ((⟨w, h⟩ : Geometry) ∈ P.raw.geoms)

/-- A pixel is in bounds of the configured geometry (42_framebuffer.md R113). -/
def inBounds (s : State) (x y : Nat) : Bool := decide (x < s.cfgW.toNat) && decide (y < s.cfgH.toNat)

/-- `index(x, y) = 1 + x + (y / 8) * S.cfg_w` (20_memory.md R44). -/
def pixelIndex (cfgW : Byte) (x y : Nat) : Nat := 1 + x + y / 8 * cfgW.toNat

/-- `bit(x, y) = y mod 8` (20_memory.md R44). -/
def pixelBit (y : Nat) : Nat := y % 8

/-- `apply(color, b, k)`: clear, set or flip bit `k` of `b` (42_framebuffer.md R112). -/
def applyColor (c : Color) (k : Nat) (b : Byte) : Byte :=
  match c with
  | .black => b &&& ~~~(1#8 <<< k)
  | .white => b ||| (1#8 <<< k)
  | .inverse => b ^^^ (1#8 <<< k)

end Sys2Proof.Machine
end

