-- ==== Sys2Proof/Machine/Alnum.lean ====
section
/-! DEFINITION. The alphanumeric segment encoder's seven commands (41_alnum_encoder.md R90 to R104). -/

namespace Sys2Proof.Machine

/-- A character cell: a code and whether its point is lit (41_alnum_encoder.md R96). -/
structure DisplayCell where
  code : Fin 128
  dp : Bool
  deriving DecidableEq, Repr

/-- The write shared by AN_WRITE_DIGIT and AN_WRITE_ASCII: BOUNDS when the position or the code is out of range, else the
whole word is set (41_alnum_encoder.md R91, R92). -/
def writeChar (pos : Option (Fin 8)) (code : Option (Fin 128)) (dp : Bool) (s : State) : State :=
  match pos, code with
  | some p, some c => respond false (s.anWrite p (glyph s.params c dp))
  | _, _ => raise .bounds s

/-- AN_CLEAR (41_alnum_encoder.md R93). -/
def execAnClear (s : State) : Host.Outcome State Fault Refusal := .next (respond false s.anClear)

/-- AN_WRITE_DIGIT (41_alnum_encoder.md R94). -/
def execAnWriteDigit (pos : Nat) (dp : Bool) (val : Nat) (s : State) : Host.Outcome State Fault Refusal :=
  .next (writeChar (positionOperand pos) (digitOperand val) dp s)

/-- AN_WRITE_ASCII (41_alnum_encoder.md R95). -/
def execAnWriteAscii (pos : Nat) (dp : Bool) (val : Nat) (s : State) : Host.Outcome State Fault Refusal :=
  .next (writeChar (positionOperand pos) (charOperand val) dp s)

/-- A digit cell of the formatter. -/
def digitCell (t : Int) (k : Nat) (dp : Bool) : DisplayCell := ⟨digitCode (digitAt t k), dp⟩

/-- Mode FOUR, "XX.YY" (41_alnum_encoder.md R98). -/
def cellsFour (t : Int) : Vector DisplayCell 4 :=
  #v[digitCell t 3 false, digitCell t 2 true, digitCell t 1 false, digitCell t 0 false]

/-- Mode THREE, "XXX.Y" (41_alnum_encoder.md R99). -/
def cellsThree (t : Int) : Vector DisplayCell 4 :=
  #v[digitCell t 4 false, digitCell t 3 false, digitCell t 2 true, digitCell t 1 false]

/-- Mode ERR, the glyphs `E R R !` (41_alnum_encoder.md R100). -/
def cellsErr : Vector DisplayCell 4 := #v[⟨0x45, false⟩, ⟨0x52, false⟩, ⟨0x52, false⟩, ⟨0x21, false⟩]

/-- `format_cells(t)`: the range selection (41_alnum_encoder.md R97). -/
def formatCells (P : Params) (t : Int) : Vector DisplayCell 4 :=
  if 1000 ≤ t ∧ t < 10000 then cellsFour t
  else if 10000 ≤ t ∧ t < 100 * (P.raw.upper : Int) then cellsThree t
  else cellsErr

/-- `S.AN[k] <- glyph(cells[k].code, cells[k].dp)` (41_alnum_encoder.md R96). -/
def State.writeCell (s : State) (k : Fin 8) (c : DisplayCell) : State := s.anWrite k (glyph s.params c.code c.dp)

/-- AN_FORMAT_TEMP: clear all eight words, then write the four cells to positions 0 to 3 (41_alnum_encoder.md R96). -/
def execAnFormatTemp (temp : Int) (s : State) : Host.Outcome State Fault Refusal :=
  let cells := formatCells s.params temp
  .next (respond false
    ((((s.anClear.writeCell 0 cells[0]).writeCell 1 cells[1]).writeCell 2 cells[2]).writeCell 3 cells[3]))

/-- The alphanumeric payload: the framing byte `0x00`, then the 16 bytes of `AN` (20_memory.md R43). -/
def anPayload (an : AnBuffer) : List Byte := 0x00#8 :: anBytes an

/-- AN_SERIALIZE (41_alnum_encoder.md R101). -/
def execAnSerialize (s : State) : Host.Outcome State Fault Refusal := .next (emit .alnum (anPayload s.an) s)

/-- The blink-rate command byte, the rate clamped to 3 (41_alnum_encoder.md R102). -/
def blinkByte (val : Nat) : Byte := 0x80#8 ||| 0x01#8 ||| (BitVec.ofNat 8 (min val 3) <<< 1)

/-- AN_CMD_BLINK (41_alnum_encoder.md R102). -/
def execAnCmdBlink (val : Nat) (s : State) : Host.Outcome State Fault Refusal :=
  .next (emit .command [blinkByte val] s)

/-- The brightness command byte, the level clamped to 15 (41_alnum_encoder.md R103). -/
def brightnessByte (val : Nat) : Byte := 0xE0#8 ||| BitVec.ofNat 8 (min val 15)

/-- AN_CMD_BRIGHTNESS (41_alnum_encoder.md R103). -/
def execAnCmdBrightness (val : Nat) (s : State) : Host.Outcome State Fault Refusal :=
  .next (emit .command [brightnessByte val] s)

end Sys2Proof.Machine
end

