-- ==== Sys2Proof/Machine/Framebuffer.lean ====
section
/-! DEFINITION. The monochrome framebuffer serializer's three commands (42_framebuffer.md R110 to R120). -/

namespace Sys2Proof.Machine

/-- FB_CONFIGURE: accept a supported geometry and clear every pixel, or CONSTRUCTION with everything kept
(42_framebuffer.md R115). -/
def execFbConfigure (w h : Nat) (s : State) : Host.Outcome State Fault Refusal :=
  .next
    (if supported s.params w h then respond false (s.setGeometry w h).fbClearPixels
    else raise .construction s)

/-- FB_SET_PIXEL: NOT_CONFIGURED, then BOUNDS, then one bit of one byte is changed (42_framebuffer.md R117, 60_exceptions.md
R132). Where the index has no byte (20_memory.md R40) the machine stops by name; no reachable state does that (R46). -/
def execFbSetPixel (x y : Nat) (color : Color) (s : State) : Host.Outcome State Fault Refusal :=
  if s.cfgValid then
    if inBounds s x y then
      match s.fbModify (pixelIndex s.cfgW x y) (applyColor color (pixelBit y)) with
      | some t => .next (respond false t)
      | none => .fault .fbIndexOutside
    else .next (raise .bounds s)
  else .next (raise .notConfigured s)

/-- FB_SERIALIZE: NOT_CONFIGURED, else the whole buffer, tag byte first (42_framebuffer.md R119, 20_memory.md R47). -/
def execFbSerialize (s : State) : Host.Outcome State Fault Refusal :=
  .next
    (if s.cfgValid then emit .framebuffer (s.fbReadBytes 0 (fbBytes s.params)) s
    else raise .notConfigured s)

end Sys2Proof.Machine
end

