-- ==== Sys2Proof/Machine/PhaseFsm.lean ====
section
/-! DEFINITION. The phase machine: the transition function and FSM_CHECK (40_phase_fsm.md R80 to R88). -/

namespace Sys2Proof.Machine

/-- `UP_ON = P_ON + P_HYST`, an exact integer (40_phase_fsm.md R80). -/
def upOn (P : Params) : Int := P.raw.on.toInt + P.raw.hyst.toInt

/-- `DN_ON = P_ON - P_HYST` (40_phase_fsm.md R80). -/
def dnOn (P : Params) : Int := P.raw.on.toInt - P.raw.hyst.toInt

/-- `UP_OFF = P_OFF + P_HYST` (40_phase_fsm.md R80). -/
def upOff (P : Params) : Int := P.raw.off.toInt + P.raw.hyst.toInt

/-- `DN_OFF = P_OFF - P_HYST` (40_phase_fsm.md R80). -/
def dnOff (P : Params) : Int := P.raw.off.toInt - P.raw.hyst.toInt

/-- `next(p, t)`: the transition table in its own order, compared as integers (40_phase_fsm.md R82, R83). -/
def nextPhase (P : Params) (p : Phase) (t : Int) : Option Phase :=
  match p with
  | .off => if upOn P ≤ t then some .heatingUp else none
  | .heatingUp => if upOff P ≤ t then some .atTemp else if t < dnOn P then some .off else none
  | .atTemp => if t ≤ dnOff P then some .coolingDown else none
  | .coolingDown => if t ≤ dnOn P then some .off else if upOff P ≤ t then some .atTemp else none

/-- FSM_CHECK: check one sample and take at most one transition (40_phase_fsm.md R84). -/
def execFsmCheck (temp : Int) (s : State) : Host.Outcome State Fault Refusal :=
  .next
    (match nextPhase s.params s.phase temp with
    | some q => respond true (s.setPhase q)
    | none => respond false s)

end Sys2Proof.Machine
end

