-- ==== Sys2Proof/Machine/Dispatch.lean ====
section
/-! DEFINITION. One arm per command (30_encoding.md R69). -/

namespace Sys2Proof.Machine

/-- What an accepted command does to the block. -/
def exec (i : Instr) (s : State) : Host.Outcome State Fault Refusal :=
  match i with
  | .fsmCheck temp => Sys2Proof.Machine.execFsmCheck temp s
  | .anClear => Sys2Proof.Machine.execAnClear s
  | .anWriteDigit pos dp val => Sys2Proof.Machine.execAnWriteDigit pos dp val s
  | .anWriteAscii pos dp val => Sys2Proof.Machine.execAnWriteAscii pos dp val s
  | .anFormatTemp temp => Sys2Proof.Machine.execAnFormatTemp temp s
  | .anSerialize => Sys2Proof.Machine.execAnSerialize s
  | .anCmdBlink val => Sys2Proof.Machine.execAnCmdBlink val s
  | .anCmdBrightness val => Sys2Proof.Machine.execAnCmdBrightness val s
  | .fbConfigure w h => Sys2Proof.Machine.execFbConfigure w h s
  | .fbSetPixel x y color => Sys2Proof.Machine.execFbSetPixel x y color s
  | .fbSerialize => Sys2Proof.Machine.execFbSerialize s

end Sys2Proof.Machine
end

