-- ==== Sys2Proof/Machine/Handshake.lean ====
section
/-! DEFINITION. The output ports, the handshake and one rising edge of the clock (10_state.md R26 to R32,
70_reset_and_hazards.md R150 to R156). -/

namespace Sys2Proof.Machine

/-! ## Output ports (10_state.md R28) -/

/-- `cmd_ready = ~S.busy`. -/
def State.cmdReady (s : State) : Bool := !s.busy

/-- The stream byte on offer, if any: `out_byte`, `out_chan` and `out_last` while `out_valid = 1` (R29 (1)). That the next
byte is on offer at once is the model's choice (log 4). -/
def State.outOffer (s : State) : Option StreamByte := if s.busy then s.pendingBytes.head? else none

/-- `out_valid`. -/
def State.outValid (s : State) : Bool := s.outOffer.isSome

/-- The response on offer, if any: `rsp_status`, `rsp_changed` and `rsp_phase` while `rsp_valid = 1`; it comes after the
last stream byte (R29 (2)). That it is on offer at once is the model's choice (log 4). -/
def State.rspOffer (s : State) : Option Response :=
  if s.busy && s.pendingBytes.isEmpty then s.pendingResponse else none

/-- `rsp_valid`. -/
def State.rspValid (s : State) : Bool := s.rspOffer.isSome

/-- `phase_o`, at all times (R32). -/
def State.phaseO (s : State) : BitVec 2 := s.phase.code

/-- `fb_cfg_valid_o`, at all times (R25). -/
def State.fbCfgValidO (s : State) : Bool := s.cfgValid

/-- The output ports as bits; a port whose value no rule gives while its valid signal is 0 is none (log 4). -/
structure OutPins where
  cmdReady : Bool
  outValid : Bool
  outByte : Option Byte
  outChan : Option (BitVec 2)
  outLast : Option Bool
  rspValid : Bool
  rspStatus : Option (BitVec 3)
  rspChanged : Option Bool
  rspPhase : Option (BitVec 2)
  phaseO : BitVec 2
  fbCfgValidO : Bool
  deriving DecidableEq, Repr

/-- What the block drives on its output ports. -/
def State.outPins (s : State) : OutPins where
  cmdReady := s.cmdReady
  outValid := s.outValid
  outByte := s.outOffer.map StreamByte.byte
  outChan := s.outOffer.map (fun b => b.chan.code)
  outLast := s.outOffer.map StreamByte.last
  rspValid := s.rspValid
  rspStatus := s.rspOffer.map (fun r => r.status.code)
  rspChanged := s.rspOffer.map Response.changed
  rspPhase := s.rspOffer.map (fun r => r.phase.code)
  phaseO := s.phaseO
  fbCfgValidO := s.fbCfgValidO

/-! ## Input ports -/

/-- Nobody offers or takes anything. -/
def Pins.idle : Pins := ⟨false, false, 0#32, 0#32, false, false⟩

/-- The host offers a command. -/
def Pins.offer (cmd data : Word) : Pins := ⟨false, true, cmd, data, false, false⟩

/-- The receiver takes a byte and the host takes a response. -/
def Pins.take : Pins := ⟨false, false, 0#32, 0#32, true, true⟩

/-- `rst` is held. -/
def Pins.reset : Pins := ⟨true, false, 0#32, 0#32, false, false⟩

/-! ## One rising edge -/

/-- A reset edge: every state element takes its reset value and a command in progress is abandoned
(70_reset_and_hazards.md R150, R151). What the receiver and the host already hold, and the model's fault record, are no
state of the block and stay (logs 5, 6). DESIGN CHOICE (log 13): a byte or response on offer at this very edge counts as
not taken, whatever `out_ready` and `rsp_ready` are. -/
def resetEdge (s : State) : State :=
  { State.resetWith s.params with
    inputs := s.inputs, sentBytes := s.sentBytes, takenResponses := s.takenResponses, faultRecord := s.faultRecord }

/-- A command is accepted: the word is decoded and run, or ends with ILLEGAL (10_state.md R29, 30_encoding.md R70). -/
def acceptCommand (cmd data : Word) (s : State) : Host.Outcome State Fault Refusal :=
  match decode cmd data with
  | .ok i => exec i s
  | .error _ => .next (raise .illegal s)

/-- The receiver takes the byte on offer (10_state.md R29 (1)). -/
def takeByte (b : StreamByte) (rest : List StreamByte) (s : State) : State :=
  { s with pendingBytes := rest, sentBytes := s.sentBytes ++ [b] }

/-- The host takes the response on offer, which ends the command (10_state.md R29 (2), R30, R31). -/
def takeResponse (r : Response) (s : State) : State :=
  { s with busy := false, pendingResponse := none, takenResponses := s.takenResponses ++ [r] }

/-- An edge of a command in progress: a byte goes when the receiver takes it, the response after the last byte when the
host takes it, and otherwise everything is held (10_state.md R29, 70_reset_and_hazards.md R156). -/
def transfer (p : Pins) (s : State) : State :=
  match s.pendingBytes with
  | b :: rest => if p.outReady then takeByte b rest s else s
  | [] =>
    match s.pendingResponse with
    | some r => if p.rspReady then takeResponse r s else s
    | none => s

/-- One rising edge of `clk` with the given input ports: reset first, then acceptance when the block is ready, then the
transfers of the command in progress (10_state.md R28 to R30). DESIGN CHOICE (log 13): reset comes first for the transfers
too, where R29 asks `rst = 0` of acceptance only and R151 does not settle it. -/
def clockEdge (p : Pins) (s : State) : Host.Outcome State Fault Refusal :=
  if p.rst then .next (resetEdge s)
  else if s.cmdReady then
    if p.cmdValid then acceptCommand p.cmd p.cmdData s else .next s
  else .next (transfer p s)

/-- The next rising edge: the first of the input ports to come, or idle ports where none are left (log 2). -/
def nextEdge (s : State) : Host.Outcome State Fault Refusal :=
  match s.inputs with
  | [] => clockEdge Pins.idle s
  | p :: rest => clockEdge p { s with inputs := rest }

/-- The host offers a command at the very next edge and the block is ready for it. -/
def State.present (s : State) (cmd data : Word) : State :=
  { s with busy := false, inputs := Pins.offer cmd data :: s.inputs }

end Sys2Proof.Machine
end

