-- ==== Sys2Proof/Machine/Step.lean ====
section
/-! DEFINITION. One step of the machine, and where it finds its next instruction. -/

namespace Sys2Proof.Machine

/-- One step is one rising edge of `clk` (10_state.md R28, R29). -/
def step (s : State) : Host.Outcome State Fault Refusal := nextEdge s

/-- The word of an opcode table row offered on the command port at the very next edge, with the block ready for it. The
block has no program counter and fetches nothing: a program is the sequence of commands the host presents
(10_state.md R21, log 8). -/
def State.withFetchWord (s : State) (nbits w : Nat) : State :=
  s.present (tableWords nbits w).1 (tableWords nbits w).2

end Sys2Proof.Machine
end

