-- ==== Sys2Proof/Machine/Assembler.lean ====
section
/-! DEFINITION. The assembler's syntax and its pseudo-instructions (30_encoding.md R77, R78). No part of the block: it
turns one line of text into the two words of a command. -/

namespace Sys2Proof.Machine

/-- The command each line stands for (30_encoding.md R78). -/
def expand : AsmLine → Instr
  | .instr i => i
  | .fbSet x y => .fbSetPixel x y .white
  | .fbClr x y => .fbSetPixel x y .black
  | .fbInv x y => .fbSetPixel x y .inverse
  | .anChar pos c dp => .anWriteAscii pos dp c.toNat

/-- A token of a line. -/
inductive Token where
  | word (cs : List Char)
  | chr (c : Char)
  | comma
  deriving DecidableEq, Repr

/-- The word read so far, if any, in front of the tokens after it. -/
def endWord (cur : List Char) (ts : List Token) : List Token :=
  if cur.isEmpty then ts else .word cur.reverse :: ts

/-- Splits a line at blanks and commas; `'c'` is one token (30_encoding.md R77). -/
def lexLine (cur : List Char) : List Char → Option (List Token)
  | [] => some (endWord cur [])
  | '\'' :: c :: '\'' :: rest => if cur.isEmpty then (lexLine [] rest).map (.chr c :: ·) else none
  | c :: rest =>
    if c = ',' then (lexLine [] rest).map (fun ts => endWord cur (.comma :: ts))
    else if c = ' ' then (lexLine [] rest).map (endWord cur)
    else lexLine (c :: cur) rest

/-- The value of a digit, hexadecimal ones included. -/
def digitValue (c : Char) : Option Nat :=
  if '0' ≤ c ∧ c ≤ '9' then some (c.toNat - 48)
  else if 'a' ≤ c ∧ c ≤ 'f' then some (c.toNat - 87)
  else if 'A' ≤ c ∧ c ≤ 'F' then some (c.toNat - 55)
  else none

/-- Digits of one base, most significant first. -/
def parseDigits (base acc : Nat) : List Char → Option Nat
  | [] => some acc
  | c :: cs =>
    match digitValue c with
    | some d => if d < base then parseDigits base (base * acc + d) cs else none
    | none => none

/-- A number, decimal or hex with `0x` (30_encoding.md R77). -/
def parseNat : List Char → Option Nat
  | [] => none
  | '0' :: 'x' :: c :: cs => parseDigits 16 0 (c :: cs)
  | cs => parseDigits 10 0 cs

/-- A number with an optional minus sign in front (log 10). -/
def parseInt : List Char → Option Int
  | '-' :: cs => (parseNat cs).map (fun n => -(n : Int))
  | cs => (parseNat cs).map (fun n => (n : Int))

/-- An operand of a line. -/
inductive AsmOperand where
  | num (n : Int)
  | chr (c : Char)
  | word (cs : List Char)
  deriving DecidableEq, Repr

/-- The operand a token is. -/
def operandOf : Token → Option AsmOperand
  | .comma => none
  | .chr c => some (.chr c)
  | .word cs =>
    match parseInt cs with
    | some n => some (.num n)
    | none => some (.word cs)

/-- Operands separated by commas (30_encoding.md R77). -/
def operandList : List Token → Option (List AsmOperand)
  | [] => none
  | [t] => (operandOf t).map ([·])
  | t :: .comma :: rest =>
    match operandOf t, operandList rest with
    | some o, some os => some (o :: os)
    | _, _ => none
  | _ => none

/-- An operand that must be an unsigned number. -/
def natOf : AsmOperand → Option Nat
  | .num n => if 0 ≤ n then some n.toNat else none
  | _ => none

/-- A character operand: a code or `'c'` (30_encoding.md R77). -/
def codeOf : AsmOperand → Option Nat
  | .chr c => some c.toNat
  | o => natOf o

/-- A color name (30_encoding.md R77). -/
def colorName (cs : List Char) : Option Color :=
  if cs = "black".toList then some .black
  else if cs = "white".toList then some .white
  else if cs = "inverse".toList then some .inverse
  else none

/-- The optional `dp` at the end of a line. -/
def dpSuffix : List AsmOperand → Option Bool
  | [] => some false
  | [.word cs] => if cs = "dp".toList then some true else none
  | _ => none

/-- A line of no operand. -/
def line0 (i : Instr) : List AsmOperand → Option AsmLine
  | [] => some (.instr i)
  | _ => none

/-- A line of one unsigned number. -/
def line1 (f : Nat → Instr) : List AsmOperand → Option AsmLine
  | [a] => (natOf a).map (fun n => .instr (f n))
  | _ => none

/-- A line of two unsigned numbers. -/
def line2 (f : Nat → Nat → AsmLine) : List AsmOperand → Option AsmLine
  | [a, b] => (natOf a).bind (fun m => (natOf b).map (fun n => f m n))
  | _ => none

/-- A line of one signed number. -/
def lineTemp (f : Int → Instr) : List AsmOperand → Option AsmLine
  | [.num t] => some (.instr (f t))
  | _ => none

/-- A line `<pos>, <value>[, dp]`, its value read by `g`. -/
def lineWrite (g : AsmOperand → Option Nat) (f : Nat → Bool → Nat → Instr) : List AsmOperand → Option AsmLine
  | a :: b :: rest =>
    (natOf a).bind (fun m => (g b).bind (fun n => (dpSuffix rest).map (fun d => .instr (f m d n))))
  | _ => none

/-- A line `<pos>, '<c>'[, dp]` (30_encoding.md R78). -/
def lineChar : List AsmOperand → Option AsmLine
  | a :: .chr c :: rest => (natOf a).bind (fun m => (dpSuffix rest).map (fun d => .anChar m c d))
  | _ => none

/-- A line `<x>, <y>, <color>`. -/
def linePixel : List AsmOperand → Option AsmLine
  | [a, b, .word cs] =>
    (natOf a).bind (fun m => (natOf b).bind (fun n => (colorName cs).map (fun k => .instr (.fbSetPixel m n k))))
  | _ => none

/-- The rows of the syntax tables (30_encoding.md R77, R78). -/
def parseOperands (m : List Char) (ops : List AsmOperand) : Option AsmLine :=
  if m = "fsm.check".toList then lineTemp .fsmCheck ops
  else if m = "an.clear".toList then line0 .anClear ops
  else if m = "an.digit".toList then lineWrite natOf .anWriteDigit ops
  else if m = "an.ascii".toList then lineWrite codeOf .anWriteAscii ops
  else if m = "an.fmt".toList then lineTemp .anFormatTemp ops
  else if m = "an.ser".toList then line0 .anSerialize ops
  else if m = "an.blink".toList then line1 .anCmdBlink ops
  else if m = "an.bright".toList then line1 .anCmdBrightness ops
  else if m = "fb.cfg".toList then line2 (fun w h => .instr (.fbConfigure w h)) ops
  else if m = "fb.px".toList then linePixel ops
  else if m = "fb.ser".toList then line0 .fbSerialize ops
  else if m = "fb.set".toList then line2 .fbSet ops
  else if m = "fb.clr".toList then line2 .fbClr ops
  else if m = "fb.inv".toList then line2 .fbInv ops
  else if m = "an.char".toList then lineChar ops
  else none

/-- One line: the mnemonic first, then the operands (30_encoding.md R77). -/
def parseLine (line : String) : Option AsmLine :=
  match lexLine [] line.toList with
  | some (.word m :: []) => parseOperands m []
  | some (.word m :: rest) => (operandList rest).bind (parseOperands m)
  | _ => none

/-- The two words of one line: none for a line outside the syntax and for an operand that does not fit its field, which
is never truncated (30_encoding.md R77). -/
def assembleLine (line : String) : Option (Word × Word) := (parseLine line).bind (fun a => assemble (expand a))

end Sys2Proof.Machine
end

