-- ==== Sys2Proof/Safety.lean ====
section
/-! DEFINITION. What claims are stated in terms of: the legal states, a command brought to its end, the table of the phase
machine as a relation, and the host's duties. -/

namespace Sys2Proof.Machine

/-- No programming error of the host is recorded, the premise 60_exceptions.md R143 asks claims about a command sequence to
carry. -/
abbrev State.NoFaultRecorded (s : State) : Prop := s.faultRecord = none

/-- `out_last` is 1 on the last byte of a payload and 0 on every other (10_state.md R27). -/
def lastFlagsOk : List StreamByte → Bool
  | [] => true
  | [b] => b.last
  | b :: c :: rest => !b.last && lastFlagsOk (c :: rest)

/-- The number of pixel bytes of the configured geometry, `w * ceil(h / 8)` (20_memory.md R46). -/
def State.pixelBytes (s : State) : Nat := s.cfgW.toNat * pagesOf s.cfgH.toNat

/-- What every state reachable from reset satisfies. -/
structure State.Legal (s : State) : Prop where
  /-- `FB` is in its canonical form, inside `0..FB_BYTES-1` (20_memory.md R40) -/
  fbForm : Memory.wf s.params.raw.fbTag (fbBytes s.params) s.fb = true
  /-- the tag byte (42_framebuffer.md R118) -/
  tagByte : s.fbRead 0 = s.params.raw.fbTag
  /-- an accepted geometry is one of `P_GEOMS` (10_state.md R25) -/
  geometry : s.cfgValid = true → (⟨s.cfgW.toNat, s.cfgH.toNat⟩ : Geometry) ∈ s.params.raw.geoms
  /-- no geometry before the first is accepted (10_state.md R25) -/
  unconfigured : s.cfgValid = false → s.cfgW = 0#8 ∧ s.cfgH = 0#8
  /-- bytes no pixel of the configured geometry reaches are `0x00` (20_memory.md R46) -/
  beyond : ∀ a, s.pixelBytes < a → s.fbRead a = 0x00#8
  /-- `S.busy` is 1 exactly while a response is owed (10_state.md R30) -/
  busyResponse : s.busy = s.pendingResponse.isSome
  /-- no stream byte is left over (10_state.md R29) -/
  idleQuiet : s.busy = false → s.pendingBytes = []
  /-- the response carries the phase after the command (10_state.md R26) -/
  responsePhase : ∀ r, s.pendingResponse = some r → r.phase = s.phase
  /-- a command that fails emits nothing and changed nothing (60_exceptions.md R131) -/
  failedQuiet : ∀ r, s.pendingResponse = some r → r.status ≠ .ok → s.pendingBytes = [] ∧ r.changed = false
  /-- the bytes left of a payload end with `out_last` (10_state.md R27) -/
  lastFlags : lastFlagsOk s.pendingBytes = true
  /-- a payload goes out on one channel (10_state.md R27) -/
  oneChannel : ∀ b ∈ s.pendingBytes, ∀ c ∈ s.pendingBytes, b.chan = c.chan
  /-- a programming error of the host is on record before its response is taken (60_exceptions.md R143) -/
  recorded : ∀ r, s.pendingResponse = some r → r.status.isHostError = true → s.faultRecord ≠ none

/-- The command in progress brought to its end: the receiver has its bytes, the host its response, and the block is ready
(10_state.md R29, R33). -/
def State.settle (s : State) : State :=
  { s with
    busy := false
    pendingBytes := []
    pendingResponse := none
    sentBytes := s.sentBytes ++ s.pendingBytes
    takenResponses := s.takenResponses ++ s.pendingResponse.toList }

/-- The edges bring a command with `n` bytes left to its end, and the last of them is the edge that ends it: no edge is a
reset edge, and over any number of edges at which the one on offer is not taken, first the bytes and then the response are
taken (10_state.md R29). The command port, and `rsp_ready` before the response, are whatever they are. -/
def delivers : Nat → List Pins → Bool
  | _, [] => false
  | 0, p :: rest => !p.rst && (if p.rspReady then rest.isEmpty else delivers 0 rest)
  | n + 1, p :: rest => !p.rst && (if p.outReady then delivers n rest else delivers (n + 1) rest)

/-- The six rows of the transition table, each without regard to the others (40_phase_fsm.md R83). -/
inductive PhaseRow (P : Params) : Phase → Int → Phase → Prop where
  | offHeatingUp (t : Int) (h : upOn P ≤ t) : PhaseRow P .off t .heatingUp
  | heatingUpAtTemp (t : Int) (h : upOff P ≤ t) : PhaseRow P .heatingUp t .atTemp
  | heatingUpOff (t : Int) (h : t < dnOn P) : PhaseRow P .heatingUp t .off
  | atTempCoolingDown (t : Int) (h : t ≤ dnOff P) : PhaseRow P .atTemp t .coolingDown
  | coolingDownOff (t : Int) (h : t ≤ dnOn P) : PhaseRow P .coolingDown t .off
  | coolingDownAtTemp (t : Int) (h : upOff P ≤ t) : PhaseRow P .coolingDown t .atTemp

/-- The phase after `n` checks of the same sample (40_phase_fsm.md R88). -/
def phaseAfter (P : Params) (t : Int) : Nat → Phase → Phase
  | 0, p => p
  | n + 1, p => phaseAfter P t n ((nextPhase P p t).getD p)

/-- The host's duty over the next two edges: a command offered while the block is not ready and still offered at the edge
after has its two words unchanged there (70_reset_and_hazards.md R155). Whether the host may withdraw `cmd_valid` in between
R155 does not say, and nothing is asked of it here. DESIGN CHOICE (log 14): the words are asked to be unchanged at the second
edge even where the block has become ready by then, though R155 asks it only while `cmd_ready = 0`; where the
first of the two edges is a reset edge nothing is asked of the words at the second, though R155 names no exception for
`rst`; and where the second is one they are asked for like at any other. -/
def State.hostHolds (s : State) : Prop :=
  match s.inputs with
  | p :: q :: _ =>
    p.rst = false → p.cmdValid = true → s.cmdReady = false →
      q.cmdValid = true → q.cmd = p.cmd ∧ q.cmdData = p.cmdData
  | _ => True

/-- Every word of an opcode with a reserved bit set ends with ILLEGAL, whatever `cmd_data` and the state
(30_encoding.md R72). -/
def IllegalOnReservedBit (op : Opcode) : Prop :=
  ∀ (cmd data : Word) (s : State), opcOf cmd = op.code → cmd &&& reservedMask op.format ≠ 0#32 →
    acceptCommand cmd data s = .next (raise .illegal s)

/-- What the framebuffer commands read agrees: the buffer, the geometry and the configuration. -/
structure State.SameFramebuffer (s t : State) : Prop where
  params : t.params = s.params
  fb : t.fb = s.fb
  cfgValid : t.cfgValid = s.cfgValid
  cfgW : t.cfgW = s.cfgW
  cfgH : t.cfgH = s.cfgH

/-- The elements of 10_state.md R20 other than `S.busy`, and the configuration, agree. -/
structure State.SameBlock (s t : State) : Prop where
  params : t.params = s.params
  phase : t.phase = s.phase
  an : t.an = s.an
  fb : t.fb = s.fb
  cfgValid : t.cfgValid = s.cfgValid
  cfgW : t.cfgW = s.cfgW
  cfgH : t.cfgH = s.cfgH

end Sys2Proof.Machine
end

