-- ==== Sys2Proof/Certificates/Slice0/Obligations.lean ====
section
/-! DEFINITION. What is claimed of the model: one Prop per statement, for the provers. Statements about the reset state
hold for every configuration, so none rests on a value of an OPEN parameter (log 1). Where an effect is given as a whole
state, the fields inputs, sentBytes, takenResponses and faultRecord in it are the model's own (logs 2, 5, 6), and so is what
it says of them. That a command's writes stand from its acceptance edge on is the model's reading (log 7). -/

open Sys2Proof Sys2Proof.Machine

/-! ## Encoding -/

/-- 30_encoding.md R79: the encoding examples, from the assembly line to the two words, and each decoded back. The zero
`cmd_data` of the nine lines where R79 writes '-' is the model's choice (log 12). -/
def Obligations.EncodingExamples : Prop :=
  assembleLine "fsm.check 5527" = some (0x10000000#32, 0x00001597#32) ∧
  assembleLine "an.clear" = some (0x20000000#32, 0#32) ∧
  assembleLine "an.digit 7, 3, dp" = some (0x37800003#32, 0#32) ∧
  assembleLine "an.ascii 0, 'E'" = some (0x40000045#32, 0#32) ∧
  assembleLine "an.fmt 5527" = some (0x50000000#32, 0x00001597#32) ∧
  assembleLine "an.ser" = some (0x60000000#32, 0#32) ∧
  assembleLine "an.blink 2" = some (0x70000002#32, 0#32) ∧
  assembleLine "an.bright 20" = some (0x80000014#32, 0#32) ∧
  assembleLine "fb.cfg 128, 32" = some (0x90002080#32, 0#32) ∧
  assembleLine "fb.px 3, 10, inverse" = some (0xA0020A03#32, 0#32) ∧
  assembleLine "fb.ser" = some (0xB0000000#32, 0#32) ∧
  decode 0x10000000#32 0x00001597#32 = .ok (.fsmCheck 5527) ∧
  decode 0x20000000#32 0#32 = .ok .anClear ∧
  decode 0x37800003#32 0#32 = .ok (.anWriteDigit 7 true 3) ∧
  decode 0x40000045#32 0#32 = .ok (.anWriteAscii 0 false 0x45) ∧
  decode 0x50000000#32 0x00001597#32 = .ok (.anFormatTemp 5527) ∧
  decode 0x60000000#32 0#32 = .ok .anSerialize ∧
  decode 0x70000002#32 0#32 = .ok (.anCmdBlink 2) ∧
  decode 0x80000014#32 0#32 = .ok (.anCmdBrightness 20) ∧
  decode 0x90002080#32 0#32 = .ok (.fbConfigure 128 32) ∧
  decode 0xA0020A03#32 0#32 = .ok (.fbSetPixel 3 10 .inverse) ∧
  decode 0xB0000000#32 0#32 = .ok .fbSerialize

/-- Decoding the encoding of a well-formed command gives it back, every operand at every value its field admits
(30_encoding.md R62 to R70). -/
def Obligations.DecodeOfEncodeIsTheCommand : Prop :=
  ∀ i : Instr, i.wellFormed = true → decode (encode i).1 (encode i).2 = .ok i

/-- 30_encoding.md R70: a word the decoder accepts spells exactly one command, which is well formed, encodes to that word,
and to that `cmd_data` where the format reads it. -/
def Obligations.AcceptedWordSpellsOneCommand : Prop :=
  ∀ (cmd data : Word) (i : Instr), decode cmd data = .ok i →
    i.wellFormed = true ∧ (encode i).1 = cmd ∧
    (i.opcode.format = .T → (encode i).2 = data) ∧
    (i.opcode.format ≠ .T → ∀ data' : Word, decode cmd data' = .ok i)

/-- 30_encoding.md R70: the decoder, with the opcode range, the six reserved masks and the color check written out, rejects
exactly the words of R71, R72 and R73, by the first check that fails, and accepts every other word. -/
def Obligations.DecoderRejectsByTheFirstFailingCheck : Prop :=
  ∀ cmd data : Word,
    let opc := cmd.toNat / 2 ^ 28
    let mask : Word :=
      if opc = 0x1 ∨ opc = 0x2 ∨ opc = 0x5 ∨ opc = 0x6 ∨ opc = 0xB then 0x0FFFFFFF#32
      else if opc = 0x3 ∨ opc = 0x4 then 0x007FFF00#32
      else if opc = 0x7 ∨ opc = 0x8 then 0x0FFFFF00#32
      else if opc = 0x9 then 0x0FFF0000#32
      else 0x0FFC0000#32
    (¬(0x1 ≤ opc ∧ opc ≤ 0xB) → decode cmd data = .error .reservedOpcode) ∧
    ((0x1 ≤ opc ∧ opc ≤ 0xB) → cmd &&& mask ≠ 0#32 → decode cmd data = .error .reservedBit) ∧
    (opc = 0xA → cmd &&& mask = 0#32 → cmd.extractLsb' 16 2 = 0b11#2 → decode cmd data = .error .reservedColor) ∧
    ((0x1 ≤ opc ∧ opc ≤ 0xB) → cmd &&& mask = 0#32 → ¬(opc = 0xA ∧ cmd.extractLsb' 16 2 = 0b11#2) →
      ∃ i : Instr, decode cmd data = .ok i ∧ i.opcode.code.toNat = opc)

/-- 30_encoding.md R63 to R68: each format's match mask selects its commands, and the fields are the bits those rules
name, read as unsigned numbers; the temperature is `cmd_data` as a signed number. -/
def Obligations.FormatFieldsAreTheNamedBits : Prop :=
  ∀ cmd data : Word,
    let pos := cmd.toNat / 2 ^ 24 % 16
    let dp := decide (cmd.toNat / 2 ^ 23 % 2 = 1)
    let lo := cmd.toNat % 256
    let mid := cmd.toNat / 256 % 256
    let temp : Int := if data.toNat < 2 ^ 31 then data.toNat else (data.toNat : Int) - 2 ^ 32
    (cmd = 0x20000000#32 → decode cmd data = .ok .anClear) ∧
    (cmd = 0x60000000#32 → decode cmd data = .ok .anSerialize) ∧
    (cmd = 0xB0000000#32 → decode cmd data = .ok .fbSerialize) ∧
    (cmd = 0x10000000#32 → decode cmd data = .ok (.fsmCheck temp)) ∧
    (cmd = 0x50000000#32 → decode cmd data = .ok (.anFormatTemp temp)) ∧
    (cmd &&& 0xF07FFF00#32 = 0x30000000#32 → decode cmd data = .ok (.anWriteDigit pos dp lo)) ∧
    (cmd &&& 0xF07FFF00#32 = 0x40000000#32 → decode cmd data = .ok (.anWriteAscii pos dp lo)) ∧
    (cmd &&& 0xFFFFFF00#32 = 0x70000000#32 → decode cmd data = .ok (.anCmdBlink lo)) ∧
    (cmd &&& 0xFFFFFF00#32 = 0x80000000#32 → decode cmd data = .ok (.anCmdBrightness lo)) ∧
    (cmd &&& 0xFFFF0000#32 = 0x90000000#32 → decode cmd data = .ok (.fbConfigure lo mid)) ∧
    (cmd &&& 0xFFFC0000#32 = 0xA0000000#32 →
      (cmd.toNat / 2 ^ 16 % 4 = 0 → decode cmd data = .ok (.fbSetPixel lo mid .black)) ∧
      (cmd.toNat / 2 ^ 16 % 4 = 1 → decode cmd data = .ok (.fbSetPixel lo mid .white)) ∧
      (cmd.toNat / 2 ^ 16 % 4 = 2 → decode cmd data = .ok (.fbSetPixel lo mid .inverse)) ∧
      (cmd.toNat / 2 ^ 16 % 4 = 3 → decode cmd data = .error .reservedColor))

/-- 30_encoding.md R74: `cmd_data` is ignored by every command whose opcode is not of format T, and no value of it makes
the acceptance of a word differ. -/
def Obligations.CmdDataIsReadByFormatTOnly : Prop :=
  ∀ (cmd data data' : Word) (s : State),
    ((opcOf cmd).toNat ≠ 0x1 ∧ (opcOf cmd).toNat ≠ 0x5 → acceptCommand cmd data s = acceptCommand cmd data' s) ∧
    (decode cmd data).isOk = (decode cmd data').isOk

/-- 30_encoding.md R77: an operand that does not fit its field is an assembler error, and every other command is given its
encoding whole. -/
def Obligations.AssemblerNeverTruncates : Prop :=
  (∀ i : Instr, i.wellFormed = false → assemble i = none) ∧
  (∀ i : Instr, i.wellFormed = true →
    ∃ cmd data : Word, assemble i = some (cmd, data) ∧ decode cmd data = .ok i) ∧
  assembleLine "an.digit 16, 3" = none ∧
  assembleLine "fb.px 300, 0, white" = none

/-- 30_encoding.md R78: the four pseudo-instructions and their expansions. The code of a character that has no ASCII code is
the model's choice (log 10). -/
def Obligations.PseudoInstructionsExpand : Prop :=
  (∀ x y : Nat, expand (.fbSet x y) = .fbSetPixel x y .white) ∧
  (∀ x y : Nat, expand (.fbClr x y) = .fbSetPixel x y .black) ∧
  (∀ x y : Nat, expand (.fbInv x y) = .fbSetPixel x y .inverse) ∧
  (∀ (pos : Nat) (c : Char) (dp : Bool), expand (.anChar pos c dp) = .anWriteAscii pos dp c.toNat) ∧
  parseLine "fb.set 95, 15" = some (.fbSet 95 15) ∧
  parseLine "fb.clr 10, 12" = some (.fbClr 10 12) ∧
  parseLine "fb.inv 0, 0" = some (.fbInv 0 0) ∧
  parseLine "an.char 6, '!', dp" = some (.anChar 6 '!' true) ∧
  parseLine "an.char 6, '!'" = some (.anChar 6 '!' false)

/-! ## Configuration and reset -/

/-- 00_scope.md R5, R7: a configuration is built exactly when every constraint holds, and the parameters never change. -/
def Obligations.BrokenConfigurationIsNotBuilt : Prop :=
  (∀ r : RawParams,
    (Params.build r).isSome = true ↔
      r.off.toInt > r.on.toInt ∧ r.hyst.toInt > 0 ∧ 100 < r.upper ∧ r.upper ≤ 1000 ∧
      (∃ a b c : Geometry, r.geoms = [a, b, c] ∧ a ≠ b ∧ a ≠ c ∧ b ≠ c) ∧
      (∀ g ∈ r.geoms, 1 ≤ g.w ∧ g.w ≤ 255 ∧ 1 ≤ g.h ∧ g.h ≤ 255) ∧
      (⟨64, 64⟩ : Geometry) ∉ r.geoms ∧ r.tLat ≥ 1) ∧
  (∀ (r : RawParams) (P : Params), Params.build r = some P → P.raw = r)

/-- 00_scope.md R5, 10_state.md R20: the parameters are fixed for the life of the block: no step changes them. -/
def Obligations.ParametersAreFixed : Prop :=
  ∀ s t : State, step s = .next t → t.params = s.params

/-- 00_scope.md R5: `MAX_W` and `MAX_H` are the largest width and height of the set, and `FB_BYTES` is computed from
them. -/
def Obligations.FramebufferSizeIsTheMaximumGeometrys : Prop :=
  ∀ P : Params,
    (∀ g ∈ P.raw.geoms, g.w ≤ maxW P ∧ g.h ≤ maxH P) ∧
    (∃ g ∈ P.raw.geoms, g.w = maxW P) ∧ (∃ g ∈ P.raw.geoms, g.h = maxH P) ∧
    fbBytes P = 1 + (maxH P + 7) / 8 * maxW P

/-- 70_reset_and_hazards.md R150: the state after reset, for the block at hand and for every configuration. -/
def Obligations.ResetValues : Prop :=
  State.reset = State.resetWith Config.params ∧
  ∀ P : Params,
    let s := State.resetWith P
    s.params = P ∧ s.phase = .atTemp ∧ s.phaseO = 0b10#2 ∧
    (∀ p : Fin 8, s.an[p] = 0x0000#16) ∧
    s.fbRead 0 = P.raw.fbTag ∧ (∀ a, 1 ≤ a → a < fbBytes P → s.fbRead a = 0x00#8) ∧
    s.cfgValid = false ∧ s.cfgW = 0#8 ∧ s.cfgH = 0#8 ∧ s.busy = false ∧
    s.cmdReady = true ∧ s.outValid = false ∧ s.rspValid = false

/-- 70_reset_and_hazards.md R150, R151: a rising edge with `rst = 1` sets every state element of every state, busy or
not, to its reset value, and what was in progress is never offered. That the two logs of what was taken stay as they were,
with nothing taken at this edge itself, and that the edge's inputs are used up is the model's choice (logs 2, 5, 13). -/
def Obligations.ResetEdgeSetsEveryElement : Prop :=
  ∀ (s : State) (p : Pins) (rest : List Pins), s.inputs = p :: rest → p.rst = true →
    ∃ t : State, step s = .next t ∧
      t.params = s.params ∧ t.phase = .atTemp ∧ (∀ k : Fin 8, t.an[k] = 0x0000#16) ∧
      t.fbRead 0 = s.params.raw.fbTag ∧ (∀ a, 1 ≤ a → a < fbBytes s.params → t.fbRead a = 0x00#8) ∧
      t.cfgValid = false ∧ t.cfgW = 0#8 ∧ t.cfgH = 0#8 ∧ t.busy = false ∧
      t.cmdReady = true ∧ t.outValid = false ∧ t.rspValid = false ∧
      t.pendingBytes = [] ∧ t.pendingResponse = none ∧
      t.inputs = rest ∧ t.sentBytes = s.sentBytes ∧ t.takenResponses = s.takenResponses

/-- The legal-state invariant holds right after reset, in every configuration. -/
def Obligations.ResetIsLegal : Prop :=
  State.reset.Legal ∧ ∀ P : Params, (State.resetWith P).Legal

/-- Every step from a legal state, whatever its inputs, gives a legal state. Of what `State.Legal` asks, the record of a
programming error is the model's own (log 6). -/
def Obligations.StepKeepsLegal : Prop :=
  ∀ s t : State, s.Legal → step s = .next t → t.Legal

/-- 60_exceptions.md R140, 20_memory.md R40, R46: no command and no input stops the block: every step from a legal state
answers a next state. In any state the one stop is the model's own (log 9): an accepted FB_SET_PIXEL whose index lies
outside `FB`. -/
def Obligations.LegalStepAlwaysAnswersNext : Prop :=
  (∀ s : State, s.Legal → ∃ t : State, step s = .next t) ∧
  (∀ s : State, (∃ t : State, step s = .next t) ∨
    (step s = .fault .fbIndexOutside ∧
      ∃ (p : Pins) (rest : List Pins) (x y : Nat) (c : Color), s.inputs = p :: rest ∧
        p.rst = false ∧ p.cmdValid = true ∧ s.busy = false ∧
        decode p.cmd p.cmdData = .ok (.fbSetPixel x y c) ∧ s.cfgValid = true ∧
        x < s.cfgW.toNat ∧ y < s.cfgH.toNat ∧ fbBytes s.params ≤ pixelIndex s.cfgW x y)) ∧
  (∀ (x y : Nat) (c : Color) (s : State), s.cfgValid = true → x < s.cfgW.toNat → y < s.cfgH.toNat →
    fbBytes s.params ≤ pixelIndex s.cfgW x y → exec (.fbSetPixel x y c) s = .fault .fbIndexOutside)

/-! ## The phase machine -/

/-- 40_phase_fsm.md R80: the four thresholds are exact integers within a 34-bit signed value. -/
def Obligations.ThresholdsAreExact : Prop :=
  ∀ P : Params,
    upOn P = P.raw.on.toInt + P.raw.hyst.toInt ∧ dnOn P = P.raw.on.toInt - P.raw.hyst.toInt ∧
    upOff P = P.raw.off.toInt + P.raw.hyst.toInt ∧ dnOff P = P.raw.off.toInt - P.raw.hyst.toInt ∧
    ∀ v ∈ [upOn P, dnOn P, upOff P, dnOff P], -2 ^ 32 ≤ v ∧ v ≤ 2 ^ 32 - 2

/-- 40_phase_fsm.md R82, R83: the transition table row for row, over all integers, and no transition where no row
matches. -/
def Obligations.TransitionTableRowForRow : Prop :=
  ∀ (P : Params) (t : Int),
    (P.raw.on.toInt + P.raw.hyst.toInt ≤ t → nextPhase P .off t = some .heatingUp) ∧
    (¬ P.raw.on.toInt + P.raw.hyst.toInt ≤ t → nextPhase P .off t = none) ∧
    (P.raw.off.toInt + P.raw.hyst.toInt ≤ t → nextPhase P .heatingUp t = some .atTemp) ∧
    (¬ P.raw.off.toInt + P.raw.hyst.toInt ≤ t → t < P.raw.on.toInt - P.raw.hyst.toInt →
      nextPhase P .heatingUp t = some .off) ∧
    (¬ P.raw.off.toInt + P.raw.hyst.toInt ≤ t → ¬ t < P.raw.on.toInt - P.raw.hyst.toInt →
      nextPhase P .heatingUp t = none) ∧
    (t ≤ P.raw.off.toInt - P.raw.hyst.toInt → nextPhase P .atTemp t = some .coolingDown) ∧
    (¬ t ≤ P.raw.off.toInt - P.raw.hyst.toInt → nextPhase P .atTemp t = none) ∧
    (t ≤ P.raw.on.toInt - P.raw.hyst.toInt → nextPhase P .coolingDown t = some .off) ∧
    (¬ t ≤ P.raw.on.toInt - P.raw.hyst.toInt → P.raw.off.toInt + P.raw.hyst.toInt ≤ t →
      nextPhase P .coolingDown t = some .atTemp) ∧
    (¬ t ≤ P.raw.on.toInt - P.raw.hyst.toInt → ¬ P.raw.off.toInt + P.raw.hyst.toInt ≤ t →
      nextPhase P .coolingDown t = none)

/-- 40_phase_fsm.md R86: under the constraints of the configuration at most one row matches, so the order of the table
never decides: the transition function is the table read as a set of rows. -/
def Obligations.AtMostOneRowMatches : Prop :=
  ∀ (P : Params) (p : Phase) (t : Int),
    (∀ q q' : Phase, PhaseRow P p t q → PhaseRow P p t q' → q = q') ∧
    (∀ q : Phase, nextPhase P p t = some q ↔ PhaseRow P p t q)

/-- 40_phase_fsm.md R87: the edge set is exactly the six edges of the table. -/
def Obligations.EdgeSetIsExact : Prop :=
  ∀ (P : Params) (p q : Phase),
    (∃ t : Int, nextPhase P p t = some q) ↔
      (p, q) ∈ [(Phase.off, Phase.heatingUp), (.heatingUp, .atTemp), (.heatingUp, .off), (.atTemp, .coolingDown),
        (.coolingDown, .off), (.coolingDown, .atTemp)]

/-- 40_phase_fsm.md R84: FSM_CHECK, its encoding, its effect on every state with everything else unchanged, its corner
cases and its worked example. -/
def Obligations.FsmCheckTakesAtMostOneTransition : Prop :=
  (∀ (cmd data : Word) (t : Int), decode cmd data = .ok (.fsmCheck t) ↔ cmd = 0x10000000#32 ∧ t = data.toInt) ∧
  IllegalOnReservedBit .fsmCheck ∧
  (∀ (t : Int) (s : State) (q : Phase), nextPhase s.params s.phase t = some q →
    exec (.fsmCheck t) s =
      .next { s with phase := q, busy := true, pendingBytes := [], pendingResponse := some ⟨.ok, true, q⟩ }) ∧
  (∀ (t : Int) (s : State), nextPhase s.params s.phase t = none →
    exec (.fsmCheck t) s =
      .next { s with busy := true, pendingBytes := [], pendingResponse := some ⟨.ok, false, s.phase⟩ }) ∧
  (∀ P : Params,
    nextPhase P .off (upOn P) = some .heatingUp ∧ nextPhase P .heatingUp (dnOn P) = none ∧
    nextPhase P .coolingDown (dnOn P) = some .off ∧ nextPhase P .atTemp (dnOff P) = some .coolingDown ∧
    nextPhase P .heatingUp (upOff P) = some .atTemp ∧ nextPhase P .coolingDown (upOff P) = some .atTemp) ∧
  (∀ s : State, s.params = Params.testBench → s.phase = .off →
    ∃ t : State, acceptCommand 0x10000000#32 15500#32 s = .next t ∧
      t.phase = .heatingUp ∧ t.pendingResponse = some ⟨.ok, true, .heatingUp⟩)

/-- 40_phase_fsm.md R85: one transition or none per command, and a check that gives none gives none when it is
repeated. -/
def Obligations.NoTransitionIsRepeatable : Prop :=
  ∀ (t : Int) (s s' : State), exec (.fsmCheck t) s = .next s' →
    (s'.phase = s.phase ∨ nextPhase s.params s.phase t = some s'.phase) ∧
    (nextPhase s.params s.phase t = none →
      s'.phase = s.phase ∧ nextPhase s'.params s'.phase t = none ∧
      ∃ s'' : State, exec (.fsmCheck t) s' = .next s'' ∧ s''.phase = s.phase ∧
        s''.pendingResponse = some ⟨.ok, false, s.phase⟩)

/-- 40_phase_fsm.md R88: checks of one constant sample make at most two transitions and then none, from every phase, and
the two longest chains are the ones named. -/
def Obligations.ConstantSampleSettles : Prop :=
  (∀ (t : Int) (s s' : State), exec (.fsmCheck t) s = .next s' → s'.phase = phaseAfter s.params t 1 s.phase) ∧
  (∀ (P : Params) (t : Int) (p : Phase) (n : Nat),
    phaseAfter P t (n + 2) p = phaseAfter P t 2 p ∧ nextPhase P (phaseAfter P t (n + 2) p) t = none) ∧
  (∀ (P : Params) (t : Int), upOff P ≤ t →
    phaseAfter P t 1 .off = .heatingUp ∧ phaseAfter P t 2 .off = .atTemp) ∧
  (∀ (P : Params) (t : Int), t ≤ dnOn P →
    phaseAfter P t 1 .atTemp = .coolingDown ∧ phaseAfter P t 2 .atTemp = .off)

/-- 10_state.md R22: only an accepted FSM_CHECK and reset write `S.phase`, over every edge from every state. That FSM_CHECK
writes it at its acceptance edge and at no later edge of the command is the model's reading (log 7, DEDUCED), and that an
empty list of edges to come stands for idle ports, which leave the phase alone, is its choice (log 2). -/
def Obligations.OnlyFsmCheckAndResetMoveThePhase : Prop :=
  ∀ s t : State, step s = .next t → t.phase ≠ s.phase →
    ∃ (p : Pins) (rest : List Pins), s.inputs = p :: rest ∧
      ((p.rst = true ∧ t.phase = .atTemp) ∨
        (p.rst = false ∧ p.cmdValid = true ∧ s.busy = false ∧
          ∃ temp : Int, decode p.cmd p.cmdData = .ok (.fsmCheck temp) ∧
            nextPhase s.params s.phase temp = some t.phase))

/-! ## The alphanumeric encoder -/

/-- 41_alnum_encoder.md R90: a glyph is the font entry with bit 14 set when the point is asked for. -/
def Obligations.GlyphIsFontEntryWithPoint : Prop :=
  ∀ (P : Params) (c : Fin 128) (dp : Bool),
    glyph P c dp = P.raw.font[c] ||| (if dp then 0x4000#16 else 0x0000#16) ∧
    ∀ k < 16, (glyph P c dp).getLsbD k = (P.raw.font[c].getLsbD k || (dp && decide (k = 14)))

/-- 41_alnum_encoder.md R93: AN_CLEAR, its encoding, its effect with everything else unchanged, and its worked example. -/
def Obligations.AnClearZeroesTheBuffer : Prop :=
  (∀ cmd data : Word, decode cmd data = .ok .anClear ↔ cmd = 0x20000000#32) ∧
  IllegalOnReservedBit .anClear ∧
  (∀ s : State, ∃ a : AnBuffer, (∀ k : Fin 8, a[k] = 0x0000#16) ∧
    exec .anClear s =
      .next { s with an := a, busy := true, pendingBytes := [], pendingResponse := some ⟨.ok, false, s.phase⟩ }) ∧
  (∀ s t : State, exec .anClear s = .next t →
    ∃ u : State, exec .anSerialize t.settle = .next u ∧
      u.pendingBytes.map StreamByte.byte = List.replicate 17 0x00#8)

/-- 41_alnum_encoder.md R94, R91, R92: AN_WRITE_DIGIT in every form: its encoding, the word it writes with everything else
unchanged, BOUNDS outside its ranges, and its worked example. -/
def Obligations.AnWriteDigitWritesOneWord : Prop :=
  (∀ cmd data : Word, cmd &&& 0xF07FFF00#32 = 0x30000000#32 ↔
    ∃ pos dp val, decode cmd data = .ok (.anWriteDigit pos dp val)) ∧
  IllegalOnReservedBit .anWriteDigit ∧
  (∀ (pos val : Nat) (dp : Bool) (s : State) (hp : pos < 8) (hv : val ≤ 9),
    exec (.anWriteDigit pos dp val) s =
      .next { s with
        an := s.an.set pos (s.params.raw.font[0x30 + val] ||| (if dp then 0x4000#16 else 0x0000#16)) hp
        busy := true
        pendingBytes := []
        pendingResponse := some ⟨.ok, false, s.phase⟩ }) ∧
  (∀ (pos val : Nat) (dp : Bool) (s : State), 8 ≤ pos ∨ 9 < val →
    exec (.anWriteDigit pos dp val) s = .next (raise .bounds s)) ∧
  (∀ s : State, s.params = Params.testBench →
    ∃ t : State, acceptCommand 0x31800005#32 0#32 s = .next t ∧ t.an = s.an.set 1 0x4035#16)

/-- 41_alnum_encoder.md R95, R91, R92: AN_WRITE_ASCII in every form: its encoding, the word it writes with everything else
unchanged, BOUNDS outside its ranges, and its worked example. -/
def Obligations.AnWriteAsciiWritesOneWord : Prop :=
  (∀ cmd data : Word, cmd &&& 0xF07FFF00#32 = 0x40000000#32 ↔
    ∃ pos dp val, decode cmd data = .ok (.anWriteAscii pos dp val)) ∧
  IllegalOnReservedBit .anWriteAscii ∧
  (∀ (pos val : Nat) (dp : Bool) (s : State) (hp : pos < 8) (hv : val ≤ 127),
    exec (.anWriteAscii pos dp val) s =
      .next { s with
        an := s.an.set pos (s.params.raw.font[val] ||| (if dp then 0x4000#16 else 0x0000#16)) hp
        busy := true
        pendingBytes := []
        pendingResponse := some ⟨.ok, false, s.phase⟩ }) ∧
  (∀ (pos val : Nat) (dp : Bool) (s : State), 8 ≤ pos ∨ 127 < val →
    exec (.anWriteAscii pos dp val) s = .next (raise .bounds s)) ∧
  (∀ (pos d : Nat) (dp : Bool) (s : State), d ≤ 9 →
    exec (.anWriteAscii pos dp (0x30 + d)) s = exec (.anWriteDigit pos dp d) s) ∧
  (∀ s : State, s.params = Params.testBench →
    ∃ t : State, acceptCommand 0x40000045#32 0#32 s = .next t ∧ t.an = s.an.set 0 0x0045#16)

/-- 41_alnum_encoder.md R91: a write to a position from 8 up ends with BOUNDS and changes no state, whatever the rest of
the operands. -/
def Obligations.PositionFromEightIsBounds : Prop :=
  ∀ (pos val : Nat) (dp : Bool) (s : State), 8 ≤ pos →
    ∀ i ∈ [Instr.anWriteDigit pos dp val, Instr.anWriteAscii pos dp val],
      ∃ t : State, exec i s = .next t ∧ s.SameBlock t ∧ t.busy = true ∧ t.pendingBytes = [] ∧
        t.pendingResponse = some ⟨.bounds, false, s.phase⟩

/-- 41_alnum_encoder.md R96 to R100: AN_FORMAT_TEMP, its encoding, all eight words in every mode with everything else
unchanged, the range selection, the cells of each mode as font entries, and its worked example. -/
def Obligations.AnFormatTempRendersTheModes : Prop :=
  (∀ (cmd data : Word) (t : Int),
    decode cmd data = .ok (.anFormatTemp t) ↔ cmd = 0x50000000#32 ∧ t = data.toInt) ∧
  IllegalOnReservedBit .anFormatTemp ∧
  (∃ t : State, acceptCommand 0x50000000#32 0x00001597#32 (State.resetWith Params.testBench) = .next t ∧
    t.an = #v[0x0035#16, 0x4035#16, 0x0032#16, 0x0037#16, 0#16, 0#16, 0#16, 0#16]) ∧
  ∀ (t : Int) (s : State),
    let font := s.params.raw.font
    let plain := fun (code : Nat) (w : SegWord) => font[code]? = some w
    let point := fun (code : Nat) (w : SegWord) => (font[code]?).map (· ||| 0x4000#16) = some w
    let digit := fun (n : Int) => 0x30 + (n % 10).toNat
    ∃ a : AnBuffer,
      exec (.anFormatTemp t) s =
        .next { s with an := a, busy := true, pendingBytes := [], pendingResponse := some ⟨.ok, false, s.phase⟩ } ∧
      a[4] = 0#16 ∧ a[5] = 0#16 ∧ a[6] = 0#16 ∧ a[7] = 0#16 ∧
      (1000 ≤ t → t < 10000 →
        plain (digit (t / 1000)) a[0] ∧ point (digit (t / 100)) a[1] ∧ plain (digit (t / 10)) a[2] ∧
        plain (digit t) a[3] ∧ 1 ≤ t / 1000 ∧ t / 1000 ≤ 9) ∧
      (10000 ≤ t → t < 100 * (s.params.raw.upper : Int) →
        plain (digit (t / 10000)) a[0] ∧ plain (digit (t / 1000)) a[1] ∧ point (digit (t / 100)) a[2] ∧
        plain (digit (t / 10)) a[3] ∧ 1 ≤ t / 10000 ∧ t / 10000 ≤ 9) ∧
      (t < 1000 ∨ 100 * (s.params.raw.upper : Int) ≤ t →
        plain 0x45 a[0] ∧ plain 0x52 a[1] ∧ plain 0x52 a[2] ∧ plain 0x21 a[3])

/-- 41_alnum_encoder.md R104: every digit is 0 to 9 and the truncated decimal place of its own position, with no carry from
another: in mode FOUR they spell the whole sample, in mode THREE all of it but the hundredths, which are dropped and not
rounded; the leading digit is never zero. -/
def Obligations.FormatTruncatesWithoutCarry : Prop :=
  ∀ (P : Params) (t : Int),
    let digitOf := fun (c : DisplayCell) => (c.code.val : Int) - 0x30
    let cells := formatCells P t
    (1000 ≤ t → t < 10000 →
      digitOf cells[0] * 1000 + digitOf cells[1] * 100 + digitOf cells[2] * 10 + digitOf cells[3] = t ∧
      digitOf cells[0] = t / 1000 % 10 ∧ digitOf cells[1] = t / 100 % 10 ∧ digitOf cells[2] = t / 10 % 10 ∧
      digitOf cells[3] = t % 10 ∧ 1 ≤ digitOf cells[0] ∧ ∀ k : Fin 4, 0 ≤ digitOf cells[k] ∧ digitOf cells[k] ≤ 9) ∧
    (10000 ≤ t → t < 100 * (P.raw.upper : Int) →
      digitOf cells[0] * 10000 + digitOf cells[1] * 1000 + digitOf cells[2] * 100 + digitOf cells[3] * 10 = t - t % 10 ∧
      digitOf cells[0] = t / 10000 % 10 ∧ digitOf cells[1] = t / 1000 % 10 ∧ digitOf cells[2] = t / 100 % 10 ∧
      digitOf cells[3] = t / 10 % 10 ∧ 1 ≤ digitOf cells[0] ∧ ∀ k : Fin 4, 0 ≤ digitOf cells[k] ∧ digitOf cells[k] ≤ 9)

/-- 20_memory.md R42: the byte view of `AN` is little-endian. -/
def Obligations.AnByteViewIsLittleEndian : Prop :=
  ∀ (an : AnBuffer) (p : Fin 8),
    (anByte an ⟨2 * p.val, by omega⟩).toNat = an[p].toNat % 256 ∧
    (anByte an ⟨2 * p.val + 1, by omega⟩).toNat = an[p].toNat / 256

/-- 41_alnum_encoder.md R101, 20_memory.md R43: AN_SERIALIZE, its encoding, and the 17 bytes it emits on channel 0 with
`out_last` on the last; nothing else changes. -/
def Obligations.AnSerializeEmitsSeventeenBytes : Prop :=
  (∀ cmd data : Word, decode cmd data = .ok .anSerialize ↔ cmd = 0x60000000#32) ∧
  IllegalOnReservedBit .anSerialize ∧
  (∀ s : State,
    let lo := fun (p : Fin 8) => (⟨.alnum, s.an[p].extractLsb' 0 8, false⟩ : StreamByte)
    let hi := fun (p : Fin 8) (last : Bool) => (⟨.alnum, s.an[p].extractLsb' 8 8, last⟩ : StreamByte)
    exec .anSerialize s =
      .next { s with
        busy := true
        pendingBytes := [⟨.alnum, 0x00#8, false⟩, lo 0, hi 0 false, lo 1, hi 1 false, lo 2, hi 2 false, lo 3, hi 3 false,
          lo 4, hi 4 false, lo 5, hi 5 false, lo 6, hi 6 false, lo 7, hi 7 true]
        pendingResponse := some ⟨.ok, false, s.phase⟩ }) ∧
  (∃ t u : State, exec (.anFormatTemp 5527) (State.resetWith Params.testBench) = .next t ∧
    exec .anSerialize t.settle = .next u ∧
      u.pendingBytes.map StreamByte.byte =
        [0x00#8, 0x35#8, 0x00#8, 0x35#8, 0x40#8, 0x32#8, 0x00#8, 0x37#8, 0x00#8,
          0x00#8, 0x00#8, 0x00#8, 0x00#8, 0x00#8, 0x00#8, 0x00#8, 0x00#8])

/-- 41_alnum_encoder.md R102: AN_CMD_BLINK, its encoding and the one byte it emits on channel 2 for every rate; nothing else
changes. -/
def Obligations.AnCmdBlinkEmitsOneByte : Prop :=
  (∀ cmd data : Word, cmd &&& 0xFFFFFF00#32 = 0x70000000#32 ↔ ∃ val, decode cmd data = .ok (.anCmdBlink val)) ∧
  IllegalOnReservedBit .anCmdBlink ∧
  (∀ (val : Nat) (s : State), ∃ b : Byte, b.toNat = 0x81 + 2 * min val 3 ∧
    exec (.anCmdBlink val) s =
      .next { s with
        busy := true
        pendingBytes := [⟨.command, b, true⟩]
        pendingResponse := some ⟨.ok, false, s.phase⟩ }) ∧
  blinkByte 0 = 0x81#8 ∧ blinkByte 3 = 0x87#8 ∧ blinkByte 4 = 0x87#8 ∧ blinkByte 255 = 0x87#8 ∧ blinkByte 2 = 0x85#8

/-- 41_alnum_encoder.md R103: AN_CMD_BRIGHTNESS, its encoding and the one byte it emits on channel 2 for every level;
nothing else changes. -/
def Obligations.AnCmdBrightnessEmitsOneByte : Prop :=
  (∀ cmd data : Word, cmd &&& 0xFFFFFF00#32 = 0x80000000#32 ↔ ∃ val, decode cmd data = .ok (.anCmdBrightness val)) ∧
  IllegalOnReservedBit .anCmdBrightness ∧
  (∀ (val : Nat) (s : State), ∃ b : Byte, b.toNat = 0xE0 + min val 15 ∧
    exec (.anCmdBrightness val) s =
      .next { s with
        busy := true
        pendingBytes := [⟨.command, b, true⟩]
        pendingResponse := some ⟨.ok, false, s.phase⟩ }) ∧
  brightnessByte 0 = 0xE0#8 ∧ brightnessByte 15 = 0xEF#8 ∧ brightnessByte 16 = 0xEF#8 ∧ brightnessByte 255 = 0xEF#8 ∧
  brightnessByte 20 = 0xEF#8

/-! ## The framebuffer -/

/-- The memory form is canonical: two framebuffers in that form that read alike everywhere are the same data (log 3). -/
def Obligations.EqualFramebuffersAreEqualData : Prop :=
  ∀ (tag : Byte) (size : Nat) (m n : Memory), Memory.wf tag size m = true → Memory.wf tag size n = true →
    (∀ a, Memory.read tag m a = Memory.read tag n a) → m = n

/-- 42_framebuffer.md R115, R110: FB_CONFIGURE on every geometry: its encoding, the accepted geometry with every pixel
cleared and the tag kept, or CONSTRUCTION with the old state kept; `(64, 64)` and `(0, 0)` are never accepted. -/
def Obligations.FbConfigureAcceptsOrKeeps : Prop :=
  (∀ cmd data : Word, cmd &&& 0xFFFF0000#32 = 0x90000000#32 ↔ ∃ w h, decode cmd data = .ok (.fbConfigure w h)) ∧
  IllegalOnReservedBit .fbConfigure ∧
  (∀ (w h : Nat) (s : State), (⟨w, h⟩ : Geometry) ∈ s.params.raw.geoms →
    ∃ m : Memory, exec (.fbConfigure w h) s =
        .next { s with
          cfgValid := true
          cfgW := BitVec.ofNat 8 w
          cfgH := BitVec.ofNat 8 h
          fb := m
          busy := true
          pendingBytes := []
          pendingResponse := some ⟨.ok, false, s.phase⟩ } ∧
      Memory.read s.params.raw.fbTag m 0 = s.fbRead 0 ∧
      (∀ a, 1 ≤ a → Memory.read s.params.raw.fbTag m a = 0x00#8) ∧
      (BitVec.ofNat 8 w).toNat = w ∧ (BitVec.ofNat 8 h).toNat = h) ∧
  (∀ (w h : Nat) (s : State), (⟨w, h⟩ : Geometry) ∉ s.params.raw.geoms →
    exec (.fbConfigure w h) s = .next (raise .construction s)) ∧
  (∀ P : Params, (⟨64, 64⟩ : Geometry) ∉ P.raw.geoms ∧ (⟨0, 0⟩ : Geometry) ∉ P.raw.geoms) ∧
  (∀ s : State, s.params = Params.testBench →
    (∃ t : State, acceptCommand 0x90002080#32 0#32 s = .next t ∧
      t.cfgValid = true ∧ t.cfgW = 128#8 ∧ t.cfgH = 32#8) ∧
    acceptCommand 0x90004040#32 0#32 s = .next (raise .construction s))

/-- 42_framebuffer.md R112: only bit `k` can change, and it is cleared, set or flipped. -/
def Obligations.ColorChangesOneBit : Prop :=
  ∀ (b : Byte) (k j : Nat), k < 8 → j < 8 →
    (applyColor .black k b).getLsbD j = (if j = k then false else b.getLsbD j) ∧
    (applyColor .white k b).getLsbD j = (if j = k then true else b.getLsbD j) ∧
    (applyColor .inverse k b).getLsbD j = (if j = k then !b.getLsbD j else b.getLsbD j)

/-- 20_memory.md R44, R46: in a legal configured state every in-bounds pixel has its byte inside the pixel bytes of the
geometry and inside `FB`, never the tag byte, and two different pixels never share a bit. -/
def Obligations.PixelsHaveTheirOwnBits : Prop :=
  ∀ s : State, s.Legal → s.cfgValid = true →
    ∀ x y x' y' : Nat, x < s.cfgW.toNat → y < s.cfgH.toNat → x' < s.cfgW.toNat → y' < s.cfgH.toNat →
      (pixelIndex s.cfgW x y = 1 + x + y / 8 * s.cfgW.toNat ∧ pixelBit y = y % 8) ∧
      (1 ≤ pixelIndex s.cfgW x y ∧ pixelIndex s.cfgW x y ≤ s.cfgW.toNat * ((s.cfgH.toNat + 7) / 8) ∧
        s.cfgW.toNat * ((s.cfgH.toNat + 7) / 8) ≤ fbBytes s.params - 1 ∧ pixelIndex s.cfgW x y < fbBytes s.params) ∧
      (pixelIndex s.cfgW x y = pixelIndex s.cfgW x' y' → pixelBit y = pixelBit y' → x = x' ∧ y = y')

/-- 42_framebuffer.md R117: FB_SET_PIXEL in every form: its encoding, its statuses, the one byte it changes on a
configured, in-bounds pixel whose byte exists (20_memory.md R46: every one, in a legal state) with every other byte of
`FB` and every other element unchanged, and its worked example. -/
def Obligations.FbSetPixelChangesOneByte : Prop :=
  (∀ cmd data : Word, cmd &&& 0xFFFC0000#32 = 0xA0000000#32 ∧ cmd.extractLsb' 16 2 ≠ 0b11#2 ↔
    ∃ x y c, decode cmd data = .ok (.fbSetPixel x y c)) ∧
  IllegalOnReservedBit .fbSetPixel ∧
  (∀ (cmd data : Word) (s : State), opcOf cmd = 0xA#4 → cmd.extractLsb' 16 2 = 0b11#2 →
    acceptCommand cmd data s = .next (raise .illegal s)) ∧
  (∀ (x y : Nat) (c : Color) (s : State), s.cfgValid = false →
    exec (.fbSetPixel x y c) s = .next (raise .notConfigured s)) ∧
  (∀ (x y : Nat) (c : Color) (s : State), s.cfgValid = true → (s.cfgW.toNat ≤ x ∨ s.cfgH.toNat ≤ y) →
    exec (.fbSetPixel x y c) s = .next (raise .bounds s)) ∧
  (∀ (x y : Nat) (c : Color) (s : State), s.cfgValid = true → x < s.cfgW.toNat → y < s.cfgH.toNat →
    1 + x + y / 8 * s.cfgW.toNat < fbBytes s.params →
    Memory.wf s.params.raw.fbTag (fbBytes s.params) s.fb = true →
    ∃ m : Memory,
      exec (.fbSetPixel x y c) s =
        .next { s with fb := m, busy := true, pendingBytes := [], pendingResponse := some ⟨.ok, false, s.phase⟩ } ∧
      (∀ a, a = 1 + x + y / 8 * s.cfgW.toNat →
        Memory.read s.params.raw.fbTag m a = applyColor c (y % 8) (s.fbRead a)) ∧
      (∀ a, a ≠ 1 + x + y / 8 * s.cfgW.toNat → Memory.read s.params.raw.fbTag m a = s.fbRead a)) ∧
  (∃ t u : State, exec (.fbConfigure 128 32) (State.resetWith Params.testBench) = .next t ∧ t.fbRead 132 = 0x00#8 ∧
    acceptCommand 0xA0010A03#32 0#32 t.settle = .next u ∧ u.fbRead 132 = 0x04#8)

/-- 42_framebuffer.md R111, R113: before a geometry is accepted FB_SET_PIXEL and FB_SERIALIZE end with NOT_CONFIGURED, and
a pixel outside the configured geometry with BOUNDS; no state changes and no byte goes out. In bounds, neither is
answered. -/
def Obligations.FbTurnedAway : Prop :=
  (∀ (x y : Nat) (c : Color) (s : State), s.cfgValid = false → ∀ i ∈ [Instr.fbSetPixel x y c, .fbSerialize],
    ∃ t : State, exec i s = .next t ∧ s.SameBlock t ∧ t.busy = true ∧ t.pendingBytes = [] ∧
      t.pendingResponse = some ⟨.notConfigured, false, s.phase⟩) ∧
  (∀ (x y : Nat) (c : Color) (s : State), s.cfgValid = true → ¬(x < s.cfgW.toNat ∧ y < s.cfgH.toNat) →
    ∃ t : State, exec (.fbSetPixel x y c) s = .next t ∧ s.SameBlock t ∧ t.busy = true ∧ t.pendingBytes = [] ∧
      t.pendingResponse = some ⟨.bounds, false, s.phase⟩) ∧
  (∀ (x y : Nat) (c : Color) (s t : State), s.cfgValid = true → x < s.cfgW.toNat → y < s.cfgH.toNat →
    exec (.fbSetPixel x y c) s = .next t → t.pendingResponse = some ⟨.ok, false, s.phase⟩)

/-- 42_framebuffer.md R119, 20_memory.md R47: FB_SERIALIZE in every state: its encoding, NOT_CONFIGURED before a geometry is
accepted, else exactly `FB_BYTES` bytes on channel 1 in index order, the tag first, `out_last` on the last, and nothing
else changed; the bytes past the configured pages are zero in a legal state; and its worked example. -/
def Obligations.FbSerializeEmitsTheWholeBuffer : Prop :=
  (∀ cmd data : Word, decode cmd data = .ok .fbSerialize ↔ cmd = 0xB0000000#32) ∧
  IllegalOnReservedBit .fbSerialize ∧
  (∀ s : State, s.cfgValid = false → exec .fbSerialize s = .next (raise .notConfigured s)) ∧
  (∀ s : State, s.cfgValid = true →
    ∃ bytes : List StreamByte,
      exec .fbSerialize s =
        .next { s with busy := true, pendingBytes := bytes, pendingResponse := some ⟨.ok, false, s.phase⟩ } ∧
      bytes.length = fbBytes s.params ∧
      ∀ k < fbBytes s.params,
        bytes[k]? = some ⟨.framebuffer, s.fbRead k, decide (k + 1 = fbBytes s.params)⟩) ∧
  (∀ s t : State, s.Legal → s.cfgValid = true → exec .fbSerialize s = .next t →
    t.pendingBytes[0]? = some ⟨.framebuffer, s.params.raw.fbTag, decide (1 = fbBytes s.params)⟩ ∧
    ∀ (k : Nat) (b : StreamByte), s.cfgW.toNat * ((s.cfgH.toNat + 7) / 8) < k → t.pendingBytes[k]? = some b →
      b.byte = 0x00#8) ∧
  (∃ t u v : State, exec (.fbConfigure 128 32) (State.resetWith Params.testBench) = .next t ∧
    exec (.fbSetPixel 3 10 .white) t.settle = .next u ∧ exec .fbSerialize u.settle = .next v ∧
    v.pendingBytes.length = 1025 ∧
    ∀ k < 1025, v.pendingBytes[k]?.map StreamByte.byte =
      some (if k = 0 then Params.testBench.raw.fbTag else if k = 132 then 0x04#8 else 0x00#8))

/-- 42_framebuffer.md R120: from any state `t'` with the buffer, geometry and parameters the first FB_SET_PIXEL left,
whatever commands that write none of them stand between, drawing Inverse again restores the buffer, and a pixel drawn White
shows as a set bit of the serialized payload at `1 + x + (y/8)*width`, bit `y mod 8`. -/
def Obligations.InverseTwiceRestoresAndWhiteShows : Prop :=
  ∀ (x y : Nat) (s : State), s.Legal → s.cfgValid = true → x < s.cfgW.toNat → y < s.cfgH.toNat →
    (∃ t : State, exec (.fbSetPixel x y .inverse) s = .next t ∧
      ∀ t' : State, t.SameFramebuffer t' → ∃ u : State, exec (.fbSetPixel x y .inverse) t' = .next u ∧ u.fb = s.fb) ∧
    (∃ t : State, exec (.fbSetPixel x y .white) s = .next t ∧
      ∀ t' : State, t.SameFramebuffer t' → ∃ u : State, exec .fbSerialize t' = .next u ∧
        ∃ b : StreamByte, u.pendingBytes[1 + x + y / 8 * s.cfgW.toNat]? = some b ∧ b.byte.getLsbD (y % 8) = true)

/-- 42_framebuffer.md R118: the tag byte keeps its value through every step, and reset sets it. -/
def Obligations.TagByteIsNeverOverwritten : Prop :=
  (∀ P : Params, (State.resetWith P).fbRead 0 = P.raw.fbTag) ∧
  (∀ (i : Instr) (s t : State), exec i s = .next t → t.fbRead 0 = s.fbRead 0) ∧
  (∀ s t : State, s.fbRead 0 = s.params.raw.fbTag → step s = .next t → t.fbRead 0 = t.params.raw.fbTag)

/-- 20_memory.md R51: the serializations write no state, and two of one buffer emit the same bytes: from any two states
with the same buffer (for FB the same geometry and parameters too), whatever stands between them. Commands that write
neither buffer nor geometry keep both. -/
def Obligations.SerializationsAreRepeatable : Prop :=
  (∀ i ∈ [Instr.anSerialize, Instr.fbSerialize], ∀ s t : State, exec i s = .next t → s.SameBlock t) ∧
  (∀ s s' t : State, s'.an = s.an → exec .anSerialize s = .next t →
    ∃ t' : State, exec .anSerialize s' = .next t' ∧ t'.pendingBytes = t.pendingBytes) ∧
  (∀ s s' t : State, s.SameFramebuffer s' → exec .fbSerialize s = .next t →
    ∃ t' : State, exec .fbSerialize s' = .next t' ∧ t'.pendingBytes = t.pendingBytes) ∧
  (∀ (i : Instr) (s t : State), exec i s = .next t →
    i.opcode ∉ [Opcode.anClear, .anWriteDigit, .anWriteAscii, .anFormatTemp] → t.an = s.an) ∧
  (∀ (i : Instr) (s t : State), exec i s = .next t →
    i.opcode ∉ [Opcode.fbConfigure, .fbSetPixel] → s.SameFramebuffer t)

/-! ## Statuses -/

/-- 60_exceptions.md R131: a command that ends with another status than OK writes no state element, emits nothing, and
answers `changed = 0` and the unchanged phase. -/
def Obligations.FailedCommandWritesNothing : Prop :=
  ∀ (cmd data : Word) (s t : State) (r : Response), acceptCommand cmd data s = .next t →
    t.pendingResponse = some r → r.status ≠ .ok →
    s.SameBlock t ∧ t.pendingBytes = [] ∧ r.changed = false ∧ r.phase = s.phase ∧
    t.inputs = s.inputs ∧ t.sentBytes = s.sentBytes ∧ t.takenResponses = s.takenResponses

/-- 60_exceptions.md R130: the status codes, and which commands can give which status. -/
def Obligations.StatusesAndTheirCommands : Prop :=
  (Status.ok.code = 0#3 ∧ Status.illegal.code = 1#3 ∧ Status.bounds.code = 2#3 ∧ Status.construction.code = 3#3 ∧
    Status.notConfigured.code = 4#3) ∧
  ∀ (cmd data : Word) (s t : State), acceptCommand cmd data s = .next t →
    ∃ r : Response, t.pendingResponse = some r ∧ r.status.code.toNat < 5 ∧
      (r.status = .illegal ↔ ∃ e, decode cmd data = .error e) ∧
      (r.status = .bounds ↔
        (∃ pos dp val, decode cmd data = .ok (.anWriteDigit pos dp val) ∧ (8 ≤ pos ∨ 9 < val)) ∨
        (∃ pos dp val, decode cmd data = .ok (.anWriteAscii pos dp val) ∧ (8 ≤ pos ∨ 127 < val)) ∨
        (∃ x y c, decode cmd data = .ok (.fbSetPixel x y c) ∧ s.cfgValid = true ∧
          ¬(x < s.cfgW.toNat ∧ y < s.cfgH.toNat))) ∧
      (r.status = .construction ↔
        ∃ w h, decode cmd data = .ok (.fbConfigure w h) ∧ (⟨w, h⟩ : Geometry) ∉ s.params.raw.geoms) ∧
      (r.status = .notConfigured ↔ s.cfgValid = false ∧
        (decode cmd data = .ok .fbSerialize ∨ ∃ x y c, decode cmd data = .ok (.fbSetPixel x y c)))

/-- 60_exceptions.md R132: ILLEGAL comes before every other check, and NOT_CONFIGURED before BOUNDS. -/
def Obligations.StatusPriority : Prop :=
  (∀ (cmd data : Word) (e : DecodeError) (s : State), decode cmd data = .error e →
    acceptCommand cmd data s = .next (raise .illegal s)) ∧
  (∀ (x y : Nat) (c : Color) (s : State), s.cfgValid = false →
    exec (.fbSetPixel x y c) s = .next (raise .notConfigured s)) ∧
  (∀ s : State, s.cfgValid = false → exec .fbSerialize s = .next (raise .notConfigured s)) ∧
  (∀ s : State, s.cfgValid = false → acceptCommand 0xA00100C8#32 0#32 s = .next (raise .notConfigured s)) ∧
  (∀ (data : Word) (s : State), acceptCommand 0xA0031000#32 data s = .next (raise .illegal s))

/-- 30_encoding.md R71, R72, R73: every illegal word ends with ILLEGAL, no state change and no bytes. -/
def Obligations.IllegalWordsHaveNoEffect : Prop :=
  ∀ (cmd data : Word) (s : State),
    ((opcOf cmd).toNat = 0 ∨ 0xC ≤ (opcOf cmd).toNat) ∨
    (∃ op, Opcode.ofCode (opcOf cmd) = some op ∧ cmd &&& reservedMask op.format ≠ 0#32) ∨
    (opcOf cmd = 0xA#4 ∧ cmd.extractLsb' 16 2 = 0b11#2) →
    ∃ t : State, acceptCommand cmd data s = .next t ∧ s.SameBlock t ∧ t.busy = true ∧ t.pendingBytes = [] ∧
      t.pendingResponse = some ⟨.illegal, false, s.phase⟩

/-- 60_exceptions.md R138: the six commands that answer OK for every operand, in every state. -/
def Obligations.SixCommandsAlwaysAnswerOk : Prop :=
  ∀ (temp : Int) (val : Nat) (s : State),
    ∀ i ∈ [Instr.fsmCheck temp, .anClear, .anFormatTemp temp, .anSerialize, .anCmdBlink val, .anCmdBrightness val],
      ∃ (t : State) (r : Response), exec i s = .next t ∧ t.pendingResponse = some r ∧ r.status = .ok

/-- 10_state.md R26: `changed` is 1 only for an FSM_CHECK that made a transition, and `phase` is the phase after the
command. -/
def Obligations.ResponseChangedAndPhase : Prop :=
  ∀ (i : Instr) (s t : State), exec i s = .next t →
    ∃ r : Response, t.pendingResponse = some r ∧ r.phase = t.phase ∧
      (r.changed = true ↔ ∃ temp : Int, i = .fsmCheck temp ∧ nextPhase s.params s.phase temp = some t.phase) ∧
      ((∀ temp : Int, i ≠ .fsmCheck temp) → t.phase = s.phase)

/-- 60_exceptions.md R143: a recorded fault is never cleared, and a command that ends with ILLEGAL, BOUNDS or NOT_CONFIGURED
leaves one on record. That the record outlives a reset edge and keeps the first error only is the model's choice (log 6). -/
def Obligations.FaultRecordIsNeverCleared : Prop :=
  (∀ (s t : State) (e : Status), s.faultRecord = some e → step s = .next t → t.faultRecord = some e) ∧
  (∀ (cmd data : Word) (s t : State) (r : Response), acceptCommand cmd data s = .next t →
    t.pendingResponse = some r → r.status = .illegal ∨ r.status = .bounds ∨ r.status = .notConfigured →
    t.faultRecord ≠ none)

/-! ## The handshake -/

/-- 10_state.md R29: at an edge with `rst = 0` and an offered command, the block, being ready, runs the command the word
spells: one step is `exec` of it, the edge's inputs used up (the list of edges is the model's own, log 2). That the whole
effect stands from this edge on is the model's reading (log 7). -/
def Obligations.StepRunsTheDecodedCommand : Prop :=
  ∀ (s : State) (p : Pins) (rest : List Pins) (i : Instr), s.inputs = p :: rest → p.rst = false → p.cmdValid = true →
    s.busy = false → decode p.cmd p.cmdData = .ok i → step s = exec i { s with inputs := rest }

/-- 10_state.md R21, log 8: a table word offered at the next edge is the command the next step runs. -/
def Obligations.PresentedWordRunsNext : Prop :=
  ∀ (s : State) (nbits w : Nat) (i : Instr), decodeTableWord nbits w = some i →
    step (s.withFetchWord nbits w) = exec i { s with busy := false }

/-- 10_state.md R30, R29, 70_reset_and_hazards.md R155: a busy block accepts nothing: its edge does not depend on what is
offered on the command port, and a ready block's edge with nothing offered changes nothing. -/
def Obligations.OnlyAReadyBlockAcceptsAnOffer : Prop :=
  (∀ (s : State) (p q : Pins), s.busy = true → p.rst = q.rst → p.outReady = q.outReady → p.rspReady = q.rspReady →
    clockEdge p s = clockEdge q s) ∧
  (∀ (s : State) (p : Pins), s.busy = false → p.rst = false → p.cmdValid = false → clockEdge p s = .next s)

/-- 10_state.md R29: a command in progress offers its stream bytes one at a time and then its response; a byte is
transferred when the receiver takes it, the response ends the command when the host takes it, whatever is not taken is
held, and the two are never offered together. That the next of them is on offer at once, so that it can go at this very
edge, is the model's choice (log 4). -/
def Obligations.BytesThenResponse : Prop :=
  (∀ s : State, ¬(s.outValid = true ∧ s.rspValid = true)) ∧
  (∀ (s : State) (p : Pins) (b : StreamByte) (rest : List StreamByte), s.busy = true → p.rst = false →
    s.pendingBytes = b :: rest →
    s.outOffer = some b ∧
    (p.outReady = true → clockEdge p s = .next { s with pendingBytes := rest, sentBytes := s.sentBytes ++ [b] }) ∧
    (p.outReady = false → clockEdge p s = .next s)) ∧
  (∀ (s : State) (p : Pins) (r : Response), s.busy = true → p.rst = false → s.pendingBytes = [] →
    s.pendingResponse = some r →
    s.rspOffer = some r ∧
    (p.rspReady = true →
      clockEdge p s =
        .next { s with busy := false, pendingResponse := none, takenResponses := s.takenResponses ++ [r] }) ∧
    (p.rspReady = false → clockEdge p s = .next s))

/-- 70_reset_and_hazards.md R156: as long as the byte on offer, or with none left the response, is not taken and there is no
reset, a busy block stays as it is over any number of edges, whatever is offered, and runs no further command. The edges
are the model's own input list (log 2). -/
def Obligations.UntakenOutputHoldsTheBlock : Prop :=
  ∀ (edges rest : List Pins) (s : State), s.busy = true → s.inputs = edges ++ rest →
    (∀ p ∈ edges, p.rst = false ∧ (s.pendingBytes ≠ [] → p.outReady = false) ∧
      (s.pendingBytes = [] → p.rspReady = false)) →
    Host.Core.run core edges.length s = .next { s with inputs := rest }

/-- 10_state.md R29, R33: from a ready block, one edge that offers an accepted command and then any edges that take its
bytes and its response, with any number of edges between at which nothing is taken and whatever the command port holds
meanwhile, bring the block to the state of the abstract step: exactly the accepted command's effect, its bytes and its
response delivered in order, and the block ready again. That the block itself adds no edges of its own is the model's
choice (log 4), and the edges are the model's own input list (log 2). -/
def Obligations.HandshakeRefinesTheAbstractStep : Prop :=
  ∀ (p : Pins) (edges rest : List Pins) (s t : State), s.busy = false → p.rst = false → p.cmdValid = true →
    acceptCommand p.cmd p.cmdData { s with inputs := rest } = .next t →
    delivers t.pendingBytes.length edges = true →
    Host.Core.run core (1 + edges.length) { s with inputs := p :: (edges ++ rest) } = .next t.settle

/-- 70_reset_and_hazards.md R155: an offer the host still holds when the block is ready is the command first offered, and
that is the one the block accepts; where the host has withdrawn it, which R155 neither allows nor forbids (log 14), nothing
is accepted. That the host's duty reaches the edge at which the block is ready, where R155 asks it only while
`cmd_ready = 0`, is the model's choice (log 14). -/
def Obligations.HeldOfferIsTheOneAccepted : Prop :=
  ∀ (s t : State) (p q : Pins) (rest : List Pins), s.inputs = p :: q :: rest → s.hostHolds → p.rst = false →
    p.cmdValid = true → s.busy = true → q.rst = false → step s = .next t → t.cmdReady = true →
    (q.cmdValid = true → step t = acceptCommand p.cmd p.cmdData { t with inputs := rest }) ∧
    (q.cmdValid = false → step t = .next { t with inputs := rest })

/-- 10_state.md R22, R25 to R28, R32: the output ports show the state: `cmd_ready` is the complement of `S.busy`, `phase_o`
the code of `S.phase` and `fb_cfg_valid_o` is `S.cfg_valid`, always; a byte on offer shows on `out_byte`, `out_chan` and
`out_last`, a response on offer on `rsp_status`, `rsp_changed` and `rsp_phase`, with the codes of R22, R27 and
60_exceptions.md R130; a ready block offers neither. After an FSM_CHECK the new phase is on `phase_o` when the response is
first offered. That a port has no value while its valid signal is 0, and that the byte or response is on offer at once, is
the model's choice (log 4). -/
def Obligations.PortsShowTheState : Prop :=
  (∀ s : State, s.outPins.cmdReady = !s.busy ∧ s.outPins.phaseO = s.phase.code ∧ s.outPins.fbCfgValidO = s.cfgValid) ∧
  (Phase.off.code = 0b00#2 ∧ Phase.heatingUp.code = 0b01#2 ∧ Phase.atTemp.code = 0b10#2 ∧
    Phase.coolingDown.code = 0b11#2) ∧
  (Chan.alnum.code = 0#2 ∧ Chan.framebuffer.code = 1#2 ∧ Chan.command.code = 2#2) ∧
  (Status.ok.code = 0#3 ∧ Status.illegal.code = 1#3 ∧ Status.bounds.code = 2#3 ∧ Status.construction.code = 3#3 ∧
    Status.notConfigured.code = 4#3) ∧
  (∀ (s : State) (b : StreamByte) (rest : List StreamByte), s.busy = true → s.pendingBytes = b :: rest →
    let o := s.outPins
    o.outValid = true ∧ o.outByte = some b.byte ∧ o.outChan = some b.chan.code ∧ o.outLast = some b.last ∧
      o.rspValid = false ∧ o.rspStatus = none ∧ o.rspChanged = none ∧ o.rspPhase = none) ∧
  (∀ (s : State) (r : Response), s.busy = true → s.pendingBytes = [] → s.pendingResponse = some r →
    let o := s.outPins
    o.rspValid = true ∧ o.rspStatus = some r.status.code ∧ o.rspChanged = some r.changed ∧
      o.rspPhase = some r.phase.code ∧ o.outValid = false ∧ o.outByte = none ∧ o.outChan = none ∧ o.outLast = none) ∧
  (∀ s : State, s.busy = false → s.outPins.outValid = false ∧ s.outPins.rspValid = false) ∧
  (∀ (temp : Int) (s t : State), exec (.fsmCheck temp) s = .next t →
    ∃ r : Response, t.rspOffer = some r ∧ t.outPins.phaseO = r.phase.code ∧ t.outPins.rspPhase = some r.phase.code)
end

