-- ==== Sys2Proof/Laws/State.lean ====
section
/-! SUPPORT. One lemma per field per update of the state, each true by unfolding the update once, so that no later proof
unfolds a record update. -/

namespace Sys2Proof.Laws

open Sys2Proof.Machine

@[simp] theorem setPhase_params (s : State) (q : Phase) : (s.setPhase q).params = s.params := rfl
@[simp] theorem setPhase_phase (s : State) (q : Phase) : (s.setPhase q).phase = q := rfl
@[simp] theorem setPhase_an (s : State) (q : Phase) : (s.setPhase q).an = s.an := rfl
@[simp] theorem setPhase_fb (s : State) (q : Phase) : (s.setPhase q).fb = s.fb := rfl
@[simp] theorem setPhase_cfgValid (s : State) (q : Phase) : (s.setPhase q).cfgValid = s.cfgValid := rfl
@[simp] theorem setPhase_cfgW (s : State) (q : Phase) : (s.setPhase q).cfgW = s.cfgW := rfl
@[simp] theorem setPhase_cfgH (s : State) (q : Phase) : (s.setPhase q).cfgH = s.cfgH := rfl
@[simp] theorem setPhase_busy (s : State) (q : Phase) : (s.setPhase q).busy = s.busy := rfl
@[simp] theorem setPhase_pendingBytes (s : State) (q : Phase) : (s.setPhase q).pendingBytes = s.pendingBytes := rfl
@[simp] theorem setPhase_pendingResponse (s : State) (q : Phase) : (s.setPhase q).pendingResponse = s.pendingResponse := rfl
@[simp] theorem setPhase_inputs (s : State) (q : Phase) : (s.setPhase q).inputs = s.inputs := rfl
@[simp] theorem setPhase_sentBytes (s : State) (q : Phase) : (s.setPhase q).sentBytes = s.sentBytes := rfl
@[simp] theorem setPhase_takenResponses (s : State) (q : Phase) : (s.setPhase q).takenResponses = s.takenResponses := rfl
@[simp] theorem setPhase_faultRecord (s : State) (q : Phase) : (s.setPhase q).faultRecord = s.faultRecord := rfl

@[simp] theorem setGeometry_params (s : State) (w h : Nat) : (s.setGeometry w h).params = s.params := rfl
@[simp] theorem setGeometry_phase (s : State) (w h : Nat) : (s.setGeometry w h).phase = s.phase := rfl
@[simp] theorem setGeometry_an (s : State) (w h : Nat) : (s.setGeometry w h).an = s.an := rfl
@[simp] theorem setGeometry_fb (s : State) (w h : Nat) : (s.setGeometry w h).fb = s.fb := rfl
@[simp] theorem setGeometry_cfgValid (s : State) (w h : Nat) : (s.setGeometry w h).cfgValid = true := rfl
@[simp] theorem setGeometry_cfgW (s : State) (w h : Nat) : (s.setGeometry w h).cfgW = BitVec.ofNat 8 w := rfl
@[simp] theorem setGeometry_cfgH (s : State) (w h : Nat) : (s.setGeometry w h).cfgH = BitVec.ofNat 8 h := rfl
@[simp] theorem setGeometry_busy (s : State) (w h : Nat) : (s.setGeometry w h).busy = s.busy := rfl
@[simp] theorem setGeometry_pendingBytes (s : State) (w h : Nat) : (s.setGeometry w h).pendingBytes = s.pendingBytes := rfl
@[simp] theorem setGeometry_pendingResponse (s : State) (w h : Nat) : (s.setGeometry w h).pendingResponse = s.pendingResponse := rfl
@[simp] theorem setGeometry_inputs (s : State) (w h : Nat) : (s.setGeometry w h).inputs = s.inputs := rfl
@[simp] theorem setGeometry_sentBytes (s : State) (w h : Nat) : (s.setGeometry w h).sentBytes = s.sentBytes := rfl
@[simp] theorem setGeometry_takenResponses (s : State) (w h : Nat) : (s.setGeometry w h).takenResponses = s.takenResponses := rfl
@[simp] theorem setGeometry_faultRecord (s : State) (w h : Nat) : (s.setGeometry w h).faultRecord = s.faultRecord := rfl

@[simp] theorem fbClearPixels_params (s : State) : (s.fbClearPixels).params = s.params := rfl
@[simp] theorem fbClearPixels_phase (s : State) : (s.fbClearPixels).phase = s.phase := rfl
@[simp] theorem fbClearPixels_an (s : State) : (s.fbClearPixels).an = s.an := rfl
@[simp] theorem fbClearPixels_fb (s : State) : (s.fbClearPixels).fb = Memory.clearPixels s.fb := rfl
@[simp] theorem fbClearPixels_cfgValid (s : State) : (s.fbClearPixels).cfgValid = s.cfgValid := rfl
@[simp] theorem fbClearPixels_cfgW (s : State) : (s.fbClearPixels).cfgW = s.cfgW := rfl
@[simp] theorem fbClearPixels_cfgH (s : State) : (s.fbClearPixels).cfgH = s.cfgH := rfl
@[simp] theorem fbClearPixels_busy (s : State) : (s.fbClearPixels).busy = s.busy := rfl
@[simp] theorem fbClearPixels_pendingBytes (s : State) : (s.fbClearPixels).pendingBytes = s.pendingBytes := rfl
@[simp] theorem fbClearPixels_pendingResponse (s : State) : (s.fbClearPixels).pendingResponse = s.pendingResponse := rfl
@[simp] theorem fbClearPixels_inputs (s : State) : (s.fbClearPixels).inputs = s.inputs := rfl
@[simp] theorem fbClearPixels_sentBytes (s : State) : (s.fbClearPixels).sentBytes = s.sentBytes := rfl
@[simp] theorem fbClearPixels_takenResponses (s : State) : (s.fbClearPixels).takenResponses = s.takenResponses := rfl
@[simp] theorem fbClearPixels_faultRecord (s : State) : (s.fbClearPixels).faultRecord = s.faultRecord := rfl

@[simp] theorem anWrite_params (s : State) (p : Fin 8) (w : SegWord) : (s.anWrite p w).params = s.params := rfl
@[simp] theorem anWrite_phase (s : State) (p : Fin 8) (w : SegWord) : (s.anWrite p w).phase = s.phase := rfl
@[simp] theorem anWrite_an (s : State) (p : Fin 8) (w : SegWord) : (s.anWrite p w).an = s.an.set p w := rfl
@[simp] theorem anWrite_fb (s : State) (p : Fin 8) (w : SegWord) : (s.anWrite p w).fb = s.fb := rfl
@[simp] theorem anWrite_cfgValid (s : State) (p : Fin 8) (w : SegWord) : (s.anWrite p w).cfgValid = s.cfgValid := rfl
@[simp] theorem anWrite_cfgW (s : State) (p : Fin 8) (w : SegWord) : (s.anWrite p w).cfgW = s.cfgW := rfl
@[simp] theorem anWrite_cfgH (s : State) (p : Fin 8) (w : SegWord) : (s.anWrite p w).cfgH = s.cfgH := rfl
@[simp] theorem anWrite_busy (s : State) (p : Fin 8) (w : SegWord) : (s.anWrite p w).busy = s.busy := rfl
@[simp] theorem anWrite_pendingBytes (s : State) (p : Fin 8) (w : SegWord) : (s.anWrite p w).pendingBytes = s.pendingBytes := rfl
@[simp] theorem anWrite_pendingResponse (s : State) (p : Fin 8) (w : SegWord) : (s.anWrite p w).pendingResponse = s.pendingResponse := rfl
@[simp] theorem anWrite_inputs (s : State) (p : Fin 8) (w : SegWord) : (s.anWrite p w).inputs = s.inputs := rfl
@[simp] theorem anWrite_sentBytes (s : State) (p : Fin 8) (w : SegWord) : (s.anWrite p w).sentBytes = s.sentBytes := rfl
@[simp] theorem anWrite_takenResponses (s : State) (p : Fin 8) (w : SegWord) : (s.anWrite p w).takenResponses = s.takenResponses := rfl
@[simp] theorem anWrite_faultRecord (s : State) (p : Fin 8) (w : SegWord) : (s.anWrite p w).faultRecord = s.faultRecord := rfl

@[simp] theorem anClear_params (s : State) : (s.anClear).params = s.params := rfl
@[simp] theorem anClear_phase (s : State) : (s.anClear).phase = s.phase := rfl
@[simp] theorem anClear_an (s : State) : (s.anClear).an = Vector.replicate 8 0#16 := rfl
@[simp] theorem anClear_fb (s : State) : (s.anClear).fb = s.fb := rfl
@[simp] theorem anClear_cfgValid (s : State) : (s.anClear).cfgValid = s.cfgValid := rfl
@[simp] theorem anClear_cfgW (s : State) : (s.anClear).cfgW = s.cfgW := rfl
@[simp] theorem anClear_cfgH (s : State) : (s.anClear).cfgH = s.cfgH := rfl
@[simp] theorem anClear_busy (s : State) : (s.anClear).busy = s.busy := rfl
@[simp] theorem anClear_pendingBytes (s : State) : (s.anClear).pendingBytes = s.pendingBytes := rfl
@[simp] theorem anClear_pendingResponse (s : State) : (s.anClear).pendingResponse = s.pendingResponse := rfl
@[simp] theorem anClear_inputs (s : State) : (s.anClear).inputs = s.inputs := rfl
@[simp] theorem anClear_sentBytes (s : State) : (s.anClear).sentBytes = s.sentBytes := rfl
@[simp] theorem anClear_takenResponses (s : State) : (s.anClear).takenResponses = s.takenResponses := rfl
@[simp] theorem anClear_faultRecord (s : State) : (s.anClear).faultRecord = s.faultRecord := rfl

@[simp] theorem finish_params (bs : List StreamByte) (st : Status) (c : Bool) (s : State) : (finish bs st c s).params = s.params := rfl
@[simp] theorem finish_phase (bs : List StreamByte) (st : Status) (c : Bool) (s : State) : (finish bs st c s).phase = s.phase := rfl
@[simp] theorem finish_an (bs : List StreamByte) (st : Status) (c : Bool) (s : State) : (finish bs st c s).an = s.an := rfl
@[simp] theorem finish_fb (bs : List StreamByte) (st : Status) (c : Bool) (s : State) : (finish bs st c s).fb = s.fb := rfl
@[simp] theorem finish_cfgValid (bs : List StreamByte) (st : Status) (c : Bool) (s : State) : (finish bs st c s).cfgValid = s.cfgValid := rfl
@[simp] theorem finish_cfgW (bs : List StreamByte) (st : Status) (c : Bool) (s : State) : (finish bs st c s).cfgW = s.cfgW := rfl
@[simp] theorem finish_cfgH (bs : List StreamByte) (st : Status) (c : Bool) (s : State) : (finish bs st c s).cfgH = s.cfgH := rfl
@[simp] theorem finish_busy (bs : List StreamByte) (st : Status) (c : Bool) (s : State) : (finish bs st c s).busy = true := rfl
@[simp] theorem finish_pendingBytes (bs : List StreamByte) (st : Status) (c : Bool) (s : State) : (finish bs st c s).pendingBytes = bs := rfl
@[simp] theorem finish_pendingResponse (bs : List StreamByte) (st : Status) (c : Bool) (s : State) : (finish bs st c s).pendingResponse = some ⟨st, c, s.phase⟩ := rfl
@[simp] theorem finish_inputs (bs : List StreamByte) (st : Status) (c : Bool) (s : State) : (finish bs st c s).inputs = s.inputs := rfl
@[simp] theorem finish_sentBytes (bs : List StreamByte) (st : Status) (c : Bool) (s : State) : (finish bs st c s).sentBytes = s.sentBytes := rfl
@[simp] theorem finish_takenResponses (bs : List StreamByte) (st : Status) (c : Bool) (s : State) : (finish bs st c s).takenResponses = s.takenResponses := rfl
@[simp] theorem finish_faultRecord (bs : List StreamByte) (st : Status) (c : Bool) (s : State) : (finish bs st c s).faultRecord = s.faultRecord := rfl

@[simp] theorem raise_params (st : Status) (s : State) : (raise st s).params = s.params := rfl
@[simp] theorem raise_phase (st : Status) (s : State) : (raise st s).phase = s.phase := rfl
@[simp] theorem raise_an (st : Status) (s : State) : (raise st s).an = s.an := rfl
@[simp] theorem raise_fb (st : Status) (s : State) : (raise st s).fb = s.fb := rfl
@[simp] theorem raise_cfgValid (st : Status) (s : State) : (raise st s).cfgValid = s.cfgValid := rfl
@[simp] theorem raise_cfgW (st : Status) (s : State) : (raise st s).cfgW = s.cfgW := rfl
@[simp] theorem raise_cfgH (st : Status) (s : State) : (raise st s).cfgH = s.cfgH := rfl
@[simp] theorem raise_busy (st : Status) (s : State) : (raise st s).busy = true := rfl
@[simp] theorem raise_pendingBytes (st : Status) (s : State) : (raise st s).pendingBytes = [] := rfl
@[simp] theorem raise_pendingResponse (st : Status) (s : State) : (raise st s).pendingResponse = some ⟨st, false, s.phase⟩ := rfl
@[simp] theorem raise_inputs (st : Status) (s : State) : (raise st s).inputs = s.inputs := rfl
@[simp] theorem raise_sentBytes (st : Status) (s : State) : (raise st s).sentBytes = s.sentBytes := rfl
@[simp] theorem raise_takenResponses (st : Status) (s : State) : (raise st s).takenResponses = s.takenResponses := rfl
@[simp] theorem raise_faultRecord (st : Status) (s : State) : (raise st s).faultRecord = recordFault st s.faultRecord := rfl

@[simp] theorem takeByte_params (b : StreamByte) (bs : List StreamByte) (s : State) : (takeByte b bs s).params = s.params := rfl
@[simp] theorem takeByte_phase (b : StreamByte) (bs : List StreamByte) (s : State) : (takeByte b bs s).phase = s.phase := rfl
@[simp] theorem takeByte_an (b : StreamByte) (bs : List StreamByte) (s : State) : (takeByte b bs s).an = s.an := rfl
@[simp] theorem takeByte_fb (b : StreamByte) (bs : List StreamByte) (s : State) : (takeByte b bs s).fb = s.fb := rfl
@[simp] theorem takeByte_cfgValid (b : StreamByte) (bs : List StreamByte) (s : State) : (takeByte b bs s).cfgValid = s.cfgValid := rfl
@[simp] theorem takeByte_cfgW (b : StreamByte) (bs : List StreamByte) (s : State) : (takeByte b bs s).cfgW = s.cfgW := rfl
@[simp] theorem takeByte_cfgH (b : StreamByte) (bs : List StreamByte) (s : State) : (takeByte b bs s).cfgH = s.cfgH := rfl
@[simp] theorem takeByte_busy (b : StreamByte) (bs : List StreamByte) (s : State) : (takeByte b bs s).busy = s.busy := rfl
@[simp] theorem takeByte_pendingBytes (b : StreamByte) (bs : List StreamByte) (s : State) : (takeByte b bs s).pendingBytes = bs := rfl
@[simp] theorem takeByte_pendingResponse (b : StreamByte) (bs : List StreamByte) (s : State) : (takeByte b bs s).pendingResponse = s.pendingResponse := rfl
@[simp] theorem takeByte_inputs (b : StreamByte) (bs : List StreamByte) (s : State) : (takeByte b bs s).inputs = s.inputs := rfl
@[simp] theorem takeByte_sentBytes (b : StreamByte) (bs : List StreamByte) (s : State) : (takeByte b bs s).sentBytes = s.sentBytes ++ [b] := rfl
@[simp] theorem takeByte_takenResponses (b : StreamByte) (bs : List StreamByte) (s : State) : (takeByte b bs s).takenResponses = s.takenResponses := rfl
@[simp] theorem takeByte_faultRecord (b : StreamByte) (bs : List StreamByte) (s : State) : (takeByte b bs s).faultRecord = s.faultRecord := rfl

@[simp] theorem takeResponse_params (r : Response) (s : State) : (takeResponse r s).params = s.params := rfl
@[simp] theorem takeResponse_phase (r : Response) (s : State) : (takeResponse r s).phase = s.phase := rfl
@[simp] theorem takeResponse_an (r : Response) (s : State) : (takeResponse r s).an = s.an := rfl
@[simp] theorem takeResponse_fb (r : Response) (s : State) : (takeResponse r s).fb = s.fb := rfl
@[simp] theorem takeResponse_cfgValid (r : Response) (s : State) : (takeResponse r s).cfgValid = s.cfgValid := rfl
@[simp] theorem takeResponse_cfgW (r : Response) (s : State) : (takeResponse r s).cfgW = s.cfgW := rfl
@[simp] theorem takeResponse_cfgH (r : Response) (s : State) : (takeResponse r s).cfgH = s.cfgH := rfl
@[simp] theorem takeResponse_busy (r : Response) (s : State) : (takeResponse r s).busy = false := rfl
@[simp] theorem takeResponse_pendingBytes (r : Response) (s : State) : (takeResponse r s).pendingBytes = s.pendingBytes := rfl
@[simp] theorem takeResponse_pendingResponse (r : Response) (s : State) : (takeResponse r s).pendingResponse = none := rfl
@[simp] theorem takeResponse_inputs (r : Response) (s : State) : (takeResponse r s).inputs = s.inputs := rfl
@[simp] theorem takeResponse_sentBytes (r : Response) (s : State) : (takeResponse r s).sentBytes = s.sentBytes := rfl
@[simp] theorem takeResponse_takenResponses (r : Response) (s : State) : (takeResponse r s).takenResponses = s.takenResponses ++ [r] := rfl
@[simp] theorem takeResponse_faultRecord (r : Response) (s : State) : (takeResponse r s).faultRecord = s.faultRecord := rfl

@[simp] theorem resetEdge_params (s : State) : (resetEdge s).params = s.params := rfl
@[simp] theorem resetEdge_phase (s : State) : (resetEdge s).phase = .atTemp := rfl
@[simp] theorem resetEdge_an (s : State) : (resetEdge s).an = Vector.replicate 8 0#16 := rfl
@[simp] theorem resetEdge_fb (s : State) : (resetEdge s).fb = [] := rfl
@[simp] theorem resetEdge_cfgValid (s : State) : (resetEdge s).cfgValid = false := rfl
@[simp] theorem resetEdge_cfgW (s : State) : (resetEdge s).cfgW = 0#8 := rfl
@[simp] theorem resetEdge_cfgH (s : State) : (resetEdge s).cfgH = 0#8 := rfl
@[simp] theorem resetEdge_busy (s : State) : (resetEdge s).busy = false := rfl
@[simp] theorem resetEdge_pendingBytes (s : State) : (resetEdge s).pendingBytes = [] := rfl
@[simp] theorem resetEdge_pendingResponse (s : State) : (resetEdge s).pendingResponse = none := rfl
@[simp] theorem resetEdge_inputs (s : State) : (resetEdge s).inputs = s.inputs := rfl
@[simp] theorem resetEdge_sentBytes (s : State) : (resetEdge s).sentBytes = s.sentBytes := rfl
@[simp] theorem resetEdge_takenResponses (s : State) : (resetEdge s).takenResponses = s.takenResponses := rfl
@[simp] theorem resetEdge_faultRecord (s : State) : (resetEdge s).faultRecord = s.faultRecord := rfl

@[simp] theorem present_params (s : State) (c d : Word) : (s.present c d).params = s.params := rfl
@[simp] theorem present_phase (s : State) (c d : Word) : (s.present c d).phase = s.phase := rfl
@[simp] theorem present_an (s : State) (c d : Word) : (s.present c d).an = s.an := rfl
@[simp] theorem present_fb (s : State) (c d : Word) : (s.present c d).fb = s.fb := rfl
@[simp] theorem present_cfgValid (s : State) (c d : Word) : (s.present c d).cfgValid = s.cfgValid := rfl
@[simp] theorem present_cfgW (s : State) (c d : Word) : (s.present c d).cfgW = s.cfgW := rfl
@[simp] theorem present_cfgH (s : State) (c d : Word) : (s.present c d).cfgH = s.cfgH := rfl
@[simp] theorem present_busy (s : State) (c d : Word) : (s.present c d).busy = false := rfl
@[simp] theorem present_pendingBytes (s : State) (c d : Word) : (s.present c d).pendingBytes = s.pendingBytes := rfl
@[simp] theorem present_pendingResponse (s : State) (c d : Word) : (s.present c d).pendingResponse = s.pendingResponse := rfl
@[simp] theorem present_inputs (s : State) (c d : Word) : (s.present c d).inputs = Pins.offer c d :: s.inputs := rfl
@[simp] theorem present_sentBytes (s : State) (c d : Word) : (s.present c d).sentBytes = s.sentBytes := rfl
@[simp] theorem present_takenResponses (s : State) (c d : Word) : (s.present c d).takenResponses = s.takenResponses := rfl
@[simp] theorem present_faultRecord (s : State) (c d : Word) : (s.present c d).faultRecord = s.faultRecord := rfl

@[simp] theorem settle_params (s : State) : (s.settle).params = s.params := rfl
@[simp] theorem settle_phase (s : State) : (s.settle).phase = s.phase := rfl
@[simp] theorem settle_an (s : State) : (s.settle).an = s.an := rfl
@[simp] theorem settle_fb (s : State) : (s.settle).fb = s.fb := rfl
@[simp] theorem settle_cfgValid (s : State) : (s.settle).cfgValid = s.cfgValid := rfl
@[simp] theorem settle_cfgW (s : State) : (s.settle).cfgW = s.cfgW := rfl
@[simp] theorem settle_cfgH (s : State) : (s.settle).cfgH = s.cfgH := rfl
@[simp] theorem settle_busy (s : State) : (s.settle).busy = false := rfl
@[simp] theorem settle_pendingBytes (s : State) : (s.settle).pendingBytes = [] := rfl
@[simp] theorem settle_pendingResponse (s : State) : (s.settle).pendingResponse = none := rfl
@[simp] theorem settle_inputs (s : State) : (s.settle).inputs = s.inputs := rfl
@[simp] theorem settle_sentBytes (s : State) : (s.settle).sentBytes = s.sentBytes ++ s.pendingBytes := rfl
@[simp] theorem settle_takenResponses (s : State) : (s.settle).takenResponses = s.takenResponses ++ s.pendingResponse.toList := rfl
@[simp] theorem settle_faultRecord (s : State) : (s.settle).faultRecord = s.faultRecord := rfl

@[simp] theorem resetWith_params (P : Params) : (State.resetWith P).params = P := rfl
@[simp] theorem resetWith_phase (P : Params) : (State.resetWith P).phase = .atTemp := rfl
@[simp] theorem resetWith_an (P : Params) : (State.resetWith P).an = Vector.replicate 8 0#16 := rfl
@[simp] theorem resetWith_fb (P : Params) : (State.resetWith P).fb = [] := rfl
@[simp] theorem resetWith_cfgValid (P : Params) : (State.resetWith P).cfgValid = false := rfl
@[simp] theorem resetWith_cfgW (P : Params) : (State.resetWith P).cfgW = 0#8 := rfl
@[simp] theorem resetWith_cfgH (P : Params) : (State.resetWith P).cfgH = 0#8 := rfl
@[simp] theorem resetWith_busy (P : Params) : (State.resetWith P).busy = false := rfl
@[simp] theorem resetWith_pendingBytes (P : Params) : (State.resetWith P).pendingBytes = [] := rfl
@[simp] theorem resetWith_pendingResponse (P : Params) : (State.resetWith P).pendingResponse = none := rfl
@[simp] theorem resetWith_inputs (P : Params) : (State.resetWith P).inputs = [] := rfl
@[simp] theorem resetWith_sentBytes (P : Params) : (State.resetWith P).sentBytes = [] := rfl
@[simp] theorem resetWith_takenResponses (P : Params) : (State.resetWith P).takenResponses = [] := rfl
@[simp] theorem resetWith_faultRecord (P : Params) : (State.resetWith P).faultRecord = none := rfl

/-- Answering OK is ending the command with no bytes. -/
@[simp] theorem respond_eq (c : Bool) (s : State) : respond c s = finish [] .ok c s := rfl

/-- Emitting is ending the command with the tagged bytes. -/
@[simp] theorem emit_eq (c : Chan) (bytes : List Byte) (s : State) :
    emit c bytes s = finish (tagBytes c bytes) .ok false s := rfl

/-- The reset state is the reset state of its own configuration. -/
theorem reset_eq : State.reset = State.resetWith Config.params := rfl

/-- A byte of `FB` is read through the memory and the tag only. -/
theorem fbRead_eq (s : State) (a : Nat) : s.fbRead a = Memory.read s.params.raw.fbTag s.fb a := rfl

end Sys2Proof.Laws
end

