-- ==== Sys2Proof/Laws/Encoding.lean ====
section
/-! SUPPORT. The small lemmas of the command words: opcodes, colors, and each field of each format read back from the word
it was put in. -/

namespace Sys2Proof.Laws

@[simp] theorem ofCode_code (o : Opcode) : Opcode.ofCode o.code = some o := by cases o <;> rfl

theorem code_of_ofCode {c : BitVec 4} {o : Opcode} (h : Opcode.ofCode c = some o) : o.code = c := by
  revert c o; decide

@[simp] theorem color_ofCode_code (c : Color) : Color.ofCode c.code = some c := by cases c <;> rfl

theorem color_code_of_ofCode {k : BitVec 2} {c : Color} (h : Color.ofCode k = some c) : c.code = k := by
  revert k c; decide

/-- No code but `0b11` is without a color (30_encoding.md R68, R73). -/
theorem color_ofCode_eq_none {k : BitVec 2} : Color.ofCode k = none ↔ k = 0b11#2 := by
  revert k; decide

variable (o : Opcode) (p v w h x y : Nat) (d : Bool) (c : Color)

@[simp] theorem opcOf_wordN : opcOf (wordN o) = o.code := by cases o <;> rfl

@[simp] theorem opcOf_wordA : opcOf (wordA o p d v) = o.code := by
  apply BitVec.eq_of_getLsbD_eq
  intro i hi
  simp only [opcOf, wordA, BitVec.getLsbD_extractLsb', BitVec.getLsbD_append]
  interval_cases i <;> simp

@[simp] theorem opcOf_wordV : opcOf (wordV o v) = o.code := by
  apply BitVec.eq_of_getLsbD_eq
  intro i hi
  simp only [opcOf, wordV, BitVec.getLsbD_extractLsb', BitVec.getLsbD_append]
  interval_cases i <;> simp

@[simp] theorem opcOf_wordG : opcOf (wordG o w h) = o.code := by
  apply BitVec.eq_of_getLsbD_eq
  intro i hi
  simp only [opcOf, wordG, BitVec.getLsbD_extractLsb', BitVec.getLsbD_append]
  interval_cases i <;> simp

@[simp] theorem opcOf_wordP : opcOf (wordP o x y c) = o.code := by
  apply BitVec.eq_of_getLsbD_eq
  intro i hi
  simp only [opcOf, wordP, BitVec.getLsbD_extractLsb', BitVec.getLsbD_append]
  interval_cases i <;> simp

@[simp] theorem reserved_wordN : wordN o &&& 0x0FFFFFFF#32 = 0#32 := by cases o <;> rfl

@[simp] theorem reserved_wordA : wordA o p d v &&& 0x007FFF00#32 = 0#32 := by
  apply BitVec.eq_of_getLsbD_eq
  intro i hi
  simp only [wordA, BitVec.getLsbD_and, BitVec.getLsbD_append]
  interval_cases i <;> simp

@[simp] theorem reserved_wordV : wordV o v &&& 0x0FFFFF00#32 = 0#32 := by
  apply BitVec.eq_of_getLsbD_eq
  intro i hi
  simp only [wordV, BitVec.getLsbD_and, BitVec.getLsbD_append]
  interval_cases i <;> simp

@[simp] theorem reserved_wordG : wordG o w h &&& 0x0FFF0000#32 = 0#32 := by
  apply BitVec.eq_of_getLsbD_eq
  intro i hi
  simp only [wordG, BitVec.getLsbD_and, BitVec.getLsbD_append]
  interval_cases i <;> simp

@[simp] theorem reserved_wordP : wordP o x y c &&& 0x0FFC0000#32 = 0#32 := by
  apply BitVec.eq_of_getLsbD_eq
  intro i hi
  simp only [wordP, BitVec.getLsbD_and, BitVec.getLsbD_append]
  interval_cases i <;> simp

theorem posField_wordA : (wordA o p d v).extractLsb' 24 4 = BitVec.ofNat 4 p := by
  apply BitVec.eq_of_getLsbD_eq
  intro i hi
  simp only [wordA, BitVec.getLsbD_extractLsb', BitVec.getLsbD_append]
  interval_cases i <;> simp

theorem valField_wordA : (wordA o p d v).extractLsb' 0 8 = BitVec.ofNat 8 v := by
  apply BitVec.eq_of_getLsbD_eq
  intro i hi
  simp only [wordA, BitVec.getLsbD_extractLsb', BitVec.getLsbD_append]
  interval_cases i <;> simp

theorem valField_wordV : (wordV o v).extractLsb' 0 8 = BitVec.ofNat 8 v := by
  apply BitVec.eq_of_getLsbD_eq
  intro i hi
  simp only [wordV, BitVec.getLsbD_extractLsb', BitVec.getLsbD_append]
  interval_cases i <;> simp

theorem wField_wordG : (wordG o w h).extractLsb' 0 8 = BitVec.ofNat 8 w := by
  apply BitVec.eq_of_getLsbD_eq
  intro i hi
  simp only [wordG, BitVec.getLsbD_extractLsb', BitVec.getLsbD_append]
  interval_cases i <;> simp

theorem hField_wordG : (wordG o w h).extractLsb' 8 8 = BitVec.ofNat 8 h := by
  apply BitVec.eq_of_getLsbD_eq
  intro i hi
  simp only [wordG, BitVec.getLsbD_extractLsb', BitVec.getLsbD_append]
  interval_cases i <;> simp

theorem xField_wordP : (wordP o x y c).extractLsb' 0 8 = BitVec.ofNat 8 x := by
  apply BitVec.eq_of_getLsbD_eq
  intro i hi
  simp only [wordP, BitVec.getLsbD_extractLsb', BitVec.getLsbD_append]
  interval_cases i <;> simp

theorem yField_wordP : (wordP o x y c).extractLsb' 8 8 = BitVec.ofNat 8 y := by
  apply BitVec.eq_of_getLsbD_eq
  intro i hi
  simp only [wordP, BitVec.getLsbD_extractLsb', BitVec.getLsbD_append]
  interval_cases i <;> simp

@[simp] theorem colorOf_wordP : colorOf (wordP o x y c) = c.code := by
  apply BitVec.eq_of_getLsbD_eq
  intro i hi
  simp only [colorOf, wordP, BitVec.getLsbD_extractLsb', BitVec.getLsbD_append]
  interval_cases i <;> simp

@[simp] theorem posOf_wordA (hp : p < 2 ^ 4) : posOf (wordA o p d v) = p := by
  rw [posOf, fieldOf, posField_wordA, BitVec.toNat_ofNat, Nat.mod_eq_of_lt hp]

@[simp] theorem dpOf_wordA : dpOf (wordA o p d v) = d := by
  simp only [dpOf, wordA, BitVec.getLsbD_append]
  simp

@[simp] theorem valOf_wordA (hv : v < 2 ^ 8) : valOf (wordA o p d v) = v := by
  rw [valOf, fieldOf, valField_wordA, BitVec.toNat_ofNat, Nat.mod_eq_of_lt hv]

@[simp] theorem valOf_wordV (hv : v < 2 ^ 8) : valOf (wordV o v) = v := by
  rw [valOf, fieldOf, valField_wordV, BitVec.toNat_ofNat, Nat.mod_eq_of_lt hv]

@[simp] theorem xOf_wordG (hw : w < 2 ^ 8) : xOf (wordG o w h) = w := by
  rw [xOf, fieldOf, wField_wordG, BitVec.toNat_ofNat, Nat.mod_eq_of_lt hw]

@[simp] theorem yOf_wordG (hh : h < 2 ^ 8) : yOf (wordG o w h) = h := by
  rw [yOf, fieldOf, hField_wordG, BitVec.toNat_ofNat, Nat.mod_eq_of_lt hh]

@[simp] theorem xOf_wordP (hx : x < 2 ^ 8) : xOf (wordP o x y c) = x := by
  rw [xOf, fieldOf, xField_wordP, BitVec.toNat_ofNat, Nat.mod_eq_of_lt hx]

@[simp] theorem yOf_wordP (hy : y < 2 ^ 8) : yOf (wordP o x y c) = y := by
  rw [yOf, fieldOf, yField_wordP, BitVec.toNat_ofNat, Nat.mod_eq_of_lt hy]

/-- A temperature that fits comes back from `cmd_data` (30_encoding.md R64). -/
theorem tempOf_ofInt {t : Int} (ht : fitsTemp t) : tempOf (BitVec.ofInt 32 t) = t := by
  unfold tempOf
  rw [BitVec.toInt_ofInt]
  simp only [fitsTemp] at ht
  norm_num [Int.bmod] at ht ⊢
  omega

/-- Every temperature the decoder reads fits. -/
theorem fitsTemp_tempOf (data : Word) : fitsTemp (tempOf data) := by
  have h1 := BitVec.two_mul_toInt_lt (x := data)
  have h2 := BitVec.le_two_mul_toInt (x := data)
  unfold fitsTemp tempOf
  omega

/-- Every field the decoder reads fits its width. -/
theorem fieldOf_lt (cmd : Word) (lo n : Nat) : fieldOf cmd lo n < 2 ^ n := BitVec.isLt _

/-- The decoder on a word whose opcode is legal. -/
theorem decode_of_opcode {cmd data : Word} {op : Opcode} (h : Opcode.ofCode (opcOf cmd) = some op)
    (hr : cmd &&& reservedMask op.format ≠ 0#32) : decode cmd data = .error .reservedBit := by
  simp [decode, h, hr]

/-! ## A word with no reserved bit set is the word of its fields -/

theorem wordN_of_fields {cmd : Word} {op : Opcode} (ho : opcOf cmd = op.code) (hm : cmd &&& 0x0FFFFFFF#32 = 0#32) :
    wordN op = cmd := by
  unfold wordN
  rw [← ho]
  apply BitVec.eq_of_getLsbD_eq
  intro k hk
  have := congrArg (fun v => BitVec.getLsbD v k) hm
  simp only [opcOf, BitVec.getLsbD_append, BitVec.getLsbD_extractLsb', BitVec.getLsbD_and] at this ⊢
  interval_cases k <;> simp_all

theorem wordA_of_fields {cmd : Word} {op : Opcode} (ho : opcOf cmd = op.code) (hm : cmd &&& 0x007FFF00#32 = 0#32) :
    wordA op (posOf cmd) (dpOf cmd) (valOf cmd) = cmd := by
  unfold wordA
  rw [← ho]
  simp only [posOf, valOf, fieldOf, BitVec.ofNat_toNat, BitVec.setWidth_eq]
  apply BitVec.eq_of_getLsbD_eq
  intro k hk
  have := congrArg (fun v => BitVec.getLsbD v k) hm
  simp only [opcOf, dpOf, BitVec.getLsbD_append, BitVec.getLsbD_extractLsb', BitVec.getLsbD_and] at this ⊢
  interval_cases k <;> simp_all

theorem wordV_of_fields {cmd : Word} {op : Opcode} (ho : opcOf cmd = op.code) (hm : cmd &&& 0x0FFFFF00#32 = 0#32) :
    wordV op (valOf cmd) = cmd := by
  unfold wordV
  rw [← ho]
  simp only [valOf, fieldOf, BitVec.ofNat_toNat, BitVec.setWidth_eq]
  apply BitVec.eq_of_getLsbD_eq
  intro k hk
  have := congrArg (fun v => BitVec.getLsbD v k) hm
  simp only [opcOf, BitVec.getLsbD_append, BitVec.getLsbD_extractLsb', BitVec.getLsbD_and] at this ⊢
  interval_cases k <;> simp_all

theorem wordG_of_fields {cmd : Word} {op : Opcode} (ho : opcOf cmd = op.code) (hm : cmd &&& 0x0FFF0000#32 = 0#32) :
    wordG op (xOf cmd) (yOf cmd) = cmd := by
  unfold wordG
  rw [← ho]
  simp only [xOf, yOf, fieldOf, BitVec.ofNat_toNat, BitVec.setWidth_eq]
  apply BitVec.eq_of_getLsbD_eq
  intro k hk
  have := congrArg (fun v => BitVec.getLsbD v k) hm
  simp only [opcOf, BitVec.getLsbD_append, BitVec.getLsbD_extractLsb', BitVec.getLsbD_and] at this ⊢
  interval_cases k <;> simp_all

theorem wordP_of_fields {cmd : Word} {op : Opcode} {c : Color} (ho : opcOf cmd = op.code) (hm : cmd &&& 0x0FFC0000#32 = 0#32)
    (hc : colorOf cmd = c.code) :
    wordP op (xOf cmd) (yOf cmd) c = cmd := by
  unfold wordP
  rw [← ho, ← hc]
  simp only [xOf, yOf, colorOf, fieldOf, BitVec.ofNat_toNat, BitVec.setWidth_eq]
  apply BitVec.eq_of_getLsbD_eq
  intro k hk
  have := congrArg (fun v => BitVec.getLsbD v k) hm
  simp only [opcOf, BitVec.getLsbD_append, BitVec.getLsbD_extractLsb', BitVec.getLsbD_and] at this ⊢
  interval_cases k <;> simp_all

/-- What an accepted word is: its opcode is the command's, no reserved bit is set, and encoding the command gives it
back. -/
theorem decode_eq_ok {cmd data : Word} {i : Instr} (h : decode cmd data = .ok i) :
    opcOf cmd = i.opcode.code ∧ cmd &&& reservedMask i.opcode.format = 0#32 ∧ (encode i).1 = cmd := by
  unfold decode at h
  split at h
  · cases h
  next op hop =>
    split at h
    · cases h
    next hm =>
      have hm : cmd &&& reservedMask op.format = 0#32 := by simpa using hm
      have ho := (code_of_ofCode hop).symm
      cases op <;> simp only [Except.ok.injEq] at h
      case fbSetPixel =>
        split at h
        · cases h
        next c hc =>
          cases h
          exact ⟨ho, hm, wordP_of_fields ho hm (color_code_of_ofCode hc).symm⟩
      all_goals subst h
      all_goals refine ⟨ho, hm, ?_⟩
      case fsmCheck | anFormatTemp | anClear | anSerialize | fbSerialize => exact wordN_of_fields ho hm
      case anWriteDigit | anWriteAscii => exact wordA_of_fields ho hm
      case anCmdBlink | anCmdBrightness => exact wordV_of_fields ho hm
      case fbConfigure => exact wordG_of_fields ho hm

end Sys2Proof.Laws
end

