-- ==== Sys2Proof/Laws/Memory.lean ====
section
/-! SUPPORT. The framebuffer memory: a read after a write, the canonical form kept by every operation, and what the state's
framebuffer accessors can do. -/

namespace Sys2Proof.Laws

open Sys2Proof.Machine

variable {tag : Byte} {size a c : Nat} {v : Byte} {m : Memory}

@[simp] theorem fbUnlisted_zero (tag : Byte) : fbUnlisted tag 0 = tag := rfl

theorem fbUnlisted_pixel (tag : Byte) (h : 1 ≤ a) : fbUnlisted tag a = 0x00#8 := by
  simp [fbUnlisted, Nat.ne_of_gt h]

@[simp] theorem read_nil (tag : Byte) (a : Nat) : Memory.read tag [] a = fbUnlisted tag a := rfl

theorem read_cons (tag : Byte) (b : Nat) (u : Byte) (m : Memory) (a : Nat) :
    Memory.read tag ((b, u) :: m) a = if b = a then u else Memory.read tag m a := rfl

/-- What the canonical form says, as a proposition. -/
theorem wf_iff : Memory.wf tag size m = true ↔
    m.Pairwise (fun p q => p.1 < q.1) ∧ ∀ p ∈ m, p.1 < size ∧ p.2 ≠ fbUnlisted tag p.1 := by
  simp [Memory.wf]

@[simp] theorem wf_nil (tag : Byte) (size : Nat) : Memory.wf tag size [] = true := rfl

/-- An address below every listed one reads as its reset content. -/
theorem read_of_below (h : ∀ p ∈ m, a < p.1) : Memory.read tag m a = fbUnlisted tag a := by
  induction m with
  | nil => rfl
  | cons p m ih =>
    obtain ⟨b, u⟩ := p
    have hb : a < b := h (b, u) (by simp)
    rw [read_cons, if_neg (by omega)]
    exact ih (fun q hq => h q (by simp [hq]))

theorem read_cell_append (tag : Byte) (v : Byte) (m : Memory) (a c : Nat) (h : Memory.read tag m a = fbUnlisted tag a) :
    Memory.read tag (Memory.cell tag a v ++ m) c = if c = a then v else Memory.read tag m c := by
  unfold Memory.cell
  by_cases hv : v = fbUnlisted tag a
  · by_cases hc : c = a
    · subst hc; simp [hv, h]
    · simp [hv, hc]
  · by_cases hc : c = a
    · subst hc; simp [hv, read_cons]
    · simp [hv, hc, read_cons, Ne.symm hc]

/-- A read after a write gives the value written at that address and the old byte everywhere else. -/
theorem read_write (hm : m.Pairwise (fun p q => p.1 < q.1)) :
    Memory.read tag (Memory.write tag m a v) c = if c = a then v else Memory.read tag m c := by
  induction m with
  | nil => simpa [Memory.write] using read_cell_append tag v [] a c rfl
  | cons p m ih =>
    obtain ⟨b, u⟩ := p
    obtain ⟨hb, hm⟩ := List.pairwise_cons.mp hm
    unfold Memory.write
    split
    · next hab =>
      refine read_cell_append tag v _ a c (read_of_below ?_)
      intro q hq
      rcases List.mem_cons.mp hq with rfl | hq
      · exact hab
      · exact lt_trans hab (hb q hq)
    · split
      · next hab =>
        subst hab
        rw [read_cell_append tag v m a c (read_of_below hb), read_cons]
        by_cases hc : c = a
        · simp [hc]
        · simp [hc, Ne.symm hc]
      · next h1 h2 =>
        rw [read_cons, read_cons, ih hm]
        by_cases hc : c = a <;> simp [hc]
        intro h; omega

/-- A write elsewhere leaves a byte alone, in every form of the list. -/
theorem read_write_other (h : c ≠ a) : Memory.read tag (Memory.write tag m a v) c = Memory.read tag m c := by
  induction m with
  | nil => simp only [Memory.write, Memory.cell]; split <;> simp [read_cons, Ne.symm h]
  | cons p m ih =>
    obtain ⟨b, u⟩ := p
    unfold Memory.write
    split
    · simp only [Memory.cell]; split <;> simp [read_cons, Ne.symm h]
    · split
      · next hab => subst hab; simp only [Memory.cell]; split <;> simp [read_cons, Ne.symm h]
      · rw [read_cons, read_cons, ih]

theorem mem_write {q : Host.Cell} (h : q ∈ Memory.write tag m a v) :
    q ∈ m ∨ (q = (a, v) ∧ v ≠ fbUnlisted tag a) := by
  induction m with
  | nil =>
    simp only [Memory.write, Memory.cell] at h
    split at h <;> simp_all
  | cons p m ih =>
    obtain ⟨b, u⟩ := p
    unfold Memory.write at h
    split at h
    · simp only [Memory.cell] at h
      split at h <;> simp_all
      tauto
    · split at h
      · simp only [Memory.cell] at h
        split at h <;> simp_all
        tauto
      · rcases List.mem_cons.mp h with rfl | h
        · simp
        · rcases ih h with h | h <;> simp [h]

theorem sorted_write (hm : m.Pairwise (fun p q => p.1 < q.1)) :
    (Memory.write tag m a v).Pairwise (fun p q => p.1 < q.1) := by
  induction m with
  | nil => simp only [Memory.write, Memory.cell]; split <;> simp
  | cons p m ih =>
    obtain ⟨b, u⟩ := p
    obtain ⟨hb, hm₀⟩ := List.pairwise_cons.mp hm
    unfold Memory.write
    split
    · next hab =>
      simp only [Memory.cell]
      split
      · exact hm
      · refine List.pairwise_cons.mpr ⟨?_, hm⟩
        intro q hq
        rcases List.mem_cons.mp hq with rfl | hq
        · exact hab
        · exact lt_trans hab (hb q hq)
    · split
      · next hab =>
        subst hab
        simp only [Memory.cell]
        split
        · exact hm₀
        · exact List.pairwise_cons.mpr ⟨hb, hm₀⟩
      · refine List.pairwise_cons.mpr ⟨?_, ih hm₀⟩
        intro q hq
        rcases mem_write hq with hq | ⟨rfl, -⟩
        · exact hb q hq
        · show b < a; omega

/-- A write inside the buffer keeps the canonical form. -/
theorem wf_write (hm : Memory.wf tag size m = true) (ha : a < size) :
    Memory.wf tag size (Memory.write tag m a v) = true := by
  rw [wf_iff] at hm ⊢
  refine ⟨sorted_write hm.1, fun q hq => ?_⟩
  rcases mem_write hq with hq | ⟨rfl, hv⟩
  · exact hm.2 q hq
  · exact ⟨ha, hv⟩

/-- Clearing the pixels keeps the canonical form. -/
theorem wf_clearPixels (hm : Memory.wf tag size m = true) : Memory.wf tag size (Memory.clearPixels m) = true := by
  rw [wf_iff] at hm ⊢
  exact ⟨hm.1.filter _, fun q hq => hm.2 q (List.mem_filter.mp hq).1⟩

/-- Clearing the pixels leaves the tag byte and sets every other byte to `0x00`. -/
theorem read_clearPixels (tag : Byte) (m : Memory) (a : Nat) :
    Memory.read tag (Memory.clearPixels m) a = if a = 0 then Memory.read tag m 0 else 0x00#8 := by
  unfold Memory.clearPixels
  induction m with
  | nil => by_cases ha : a = 0 <;> simp [fbUnlisted, ha]
  | cons p m ih =>
    obtain ⟨b, u⟩ := p
    by_cases hb : b = 0
    · subst hb
      by_cases ha : a = 0
      · subst ha; simp [read_cons]
      · simp [read_cons, Ne.symm ha, ih, ha]
    · simp [hb, ih, read_cons]

/-- Everything `fbModify` can do: it needs the byte to exist, and then writes the changed byte back. -/
theorem fbModify_eq_some {s t : State} {f : Byte → Byte} :
    s.fbModify a f = some t ↔
      a < fbBytes s.params ∧ t = { s with fb := Memory.write s.params.raw.fbTag s.fb a (f (s.fbRead a)) } := by
  unfold State.fbModify
  split <;> simp_all [eq_comm]

theorem fbModify_eq_none {s : State} {f : Byte → Byte} : s.fbModify a f = none ↔ fbBytes s.params ≤ a := by
  unfold State.fbModify
  split <;> simp_all

@[simp] theorem fbReadBytes_length (s : State) (a n : Nat) : (s.fbReadBytes a n).length = n := by
  simp [State.fbReadBytes]

theorem fbReadBytes_getElem? (s : State) {k n : Nat} (h : k < n) : (s.fbReadBytes 0 n)[k]? = some (s.fbRead k) := by
  simp [State.fbReadBytes, h]

end Sys2Proof.Laws
end

