-- ==== Sys2Proof/Laws/Ops.lean ====
section
/-! SUPPORT. One lemma for each shared operation that says once everything it can do, up to the accepted command and the
clock edge. -/

namespace Sys2Proof.Laws

open Sys2Proof.Machine

/-! ## Tagged payloads -/

theorem tagBytes_cons_cons (c : Chan) (b b' : Byte) (bs : List Byte) :
    tagBytes c (b :: b' :: bs) = ⟨c, b, false⟩ :: tagBytes c (b' :: bs) := rfl

@[simp] theorem tagBytes_bytes (c : Chan) (bs : List Byte) : (tagBytes c bs).map StreamByte.byte = bs := by
  fun_induction tagBytes c bs <;> simp_all

@[simp] theorem tagBytes_length (c : Chan) (bs : List Byte) : (tagBytes c bs).length = bs.length := by
  fun_induction tagBytes c bs <;> simp_all

theorem tagBytes_chan {c : Chan} {bs : List Byte} {x : StreamByte} (h : x ∈ tagBytes c bs) : x.chan = c := by
  fun_induction tagBytes c bs <;> simp_all
  rcases h with rfl | h
  · rfl
  · simp_all

theorem lastFlagsOk_cons (b : StreamByte) {l : List StreamByte} (hl : l ≠ []) :
    lastFlagsOk (b :: l) = (!b.last && lastFlagsOk l) := by
  cases l with
  | nil => exact absurd rfl hl
  | cons c l => rfl

theorem tagBytes_lastFlags (c : Chan) (bs : List Byte) : lastFlagsOk (tagBytes c bs) = true := by
  fun_induction tagBytes c bs with
  | case1 => rfl
  | case2 => rfl
  | case3 b rest h ih =>
    have hne : tagBytes c rest ≠ [] := fun e => by
      have hl := congrArg List.length e
      rw [tagBytes_length] at hl
      exact h (List.length_eq_zero_iff.mp hl)
    rw [lastFlagsOk_cons _ hne, ih]
    rfl

/-- What is left of a payload still ends with `out_last`. -/
theorem lastFlagsOk_tail {b : StreamByte} {l : List StreamByte} (h : lastFlagsOk (b :: l) = true) :
    lastFlagsOk l = true := by
  cases l with
  | nil => rfl
  | cons c l => simp [lastFlagsOk] at h; exact h.2

theorem tagBytes_getElem? (c : Chan) (bs : List Byte) (k : Nat) :
    (tagBytes c bs)[k]? = bs[k]?.map (fun b => ⟨c, b, decide (k + 1 = bs.length)⟩) := by
  induction bs generalizing k with
  | nil => simp [tagBytes]
  | cons b bs ih =>
    cases bs with
    | nil => cases k <;> simp [tagBytes]
    | cons b' bs =>
      rw [tagBytes_cons_cons]
      cases k with
      | zero => simp
      | succ k => simpa using ih k

/-! ## Operands -/

theorem positionOperand_of_lt {pos : Nat} (h : pos < 8) : positionOperand pos = some ⟨pos, h⟩ := dif_pos h

theorem positionOperand_of_ge {pos : Nat} (h : 8 ≤ pos) : positionOperand pos = none := dif_neg (by omega)

theorem digitOperand_of_le {v : Nat} (h : v ≤ 9) : digitOperand v = some ⟨0x30 + v, by omega⟩ :=
  dif_pos (show v < 10 by omega)

theorem digitOperand_of_gt {v : Nat} (h : 9 < v) : digitOperand v = none := dif_neg (by omega)

theorem charOperand_of_le {v : Nat} (h : v ≤ 127) : charOperand v = some ⟨v, by omega⟩ :=
  dif_pos (show v < 128 by omega)

theorem charOperand_of_gt {v : Nat} (h : 127 < v) : charOperand v = none := dif_neg (by omega)

theorem supported_iff {P : Params} {w h : Nat} : supported P w h = true ↔ (⟨w, h⟩ : Geometry) ∈ P.raw.geoms := by
  simp [supported]

theorem inBounds_iff {s : State} {x y : Nat} : inBounds s x y = true ↔ x < s.cfgW.toNat ∧ y < s.cfgH.toNat := by
  simp [inBounds]

theorem recordFault_keeps (st e : Status) : recordFault st (some e) = some e := rfl

/-- A character write either sets one word and answers OK or ends with BOUNDS. -/
theorem writeChar_cases (pos : Option (Fin 8)) (code : Option (Fin 128)) (dp : Bool) (s : State) :
    (∃ p c, pos = some p ∧ code = some c ∧ writeChar pos code dp s = finish [] .ok false (s.anWrite p (glyph s.params c dp))) ∨
      writeChar pos code dp s = raise .bounds s := by
  cases pos with
  | none => exact .inr rfl
  | some p =>
    cases code with
    | none => exact .inr rfl
    | some c => exact .inl ⟨p, c, rfl, rfl, rfl⟩

/-! ## The accepted command -/

/-- What an executed command can do: a transition, new segment words, stream bytes, a new geometry, one changed byte of the
framebuffer, or a refusal with a status; FSM_CHECK without a transition emits nothing. -/
theorem exec_cases {i : Instr} {s t : State} (h : exec i s = .next t) :
    (∃ temp q, i = .fsmCheck temp ∧ nextPhase s.params s.phase temp = some q ∧ t = finish [] .ok true (s.setPhase q)) ∨
    (∃ a : AnBuffer, i.opcode ∈ [Opcode.anClear, .anWriteDigit, .anWriteAscii, .anFormatTemp] ∧
      t = finish [] .ok false { s with an := a }) ∨
    (∃ c bytes, (∀ temp q, i = .fsmCheck temp → nextPhase s.params s.phase temp ≠ some q) ∧
      t = finish (tagBytes c bytes) .ok false s) ∨
    (∃ w g, i = .fbConfigure w g ∧ (⟨w, g⟩ : Geometry) ∈ s.params.raw.geoms ∧
      t = finish [] .ok false (s.setGeometry w g).fbClearPixels) ∨
    (∃ x y c, i = .fbSetPixel x y c ∧ s.cfgValid = true ∧ x < s.cfgW.toNat ∧ y < s.cfgH.toNat ∧
      pixelIndex s.cfgW x y < fbBytes s.params ∧
      t = finish [] .ok false
        { s with
          fb := Memory.write s.params.raw.fbTag s.fb (pixelIndex s.cfgW x y)
            (applyColor c (pixelBit y) (s.fbRead (pixelIndex s.cfgW x y))) }) ∨
    (∃ st, st ≠ .ok ∧ (∀ temp, i ≠ .fsmCheck temp) ∧ t = raise st s) := by
  cases i with
  | fsmCheck temp =>
    simp only [exec, execFsmCheck, Host.Outcome.next.injEq] at h
    subst h
    cases hq : nextPhase s.params s.phase temp with
    | some q => exact .inl ⟨temp, q, rfl, hq, rfl⟩
    | none => exact .inr (.inr (.inl ⟨.alnum, [], fun temp' q h' => by cases h'; simp [hq], rfl⟩))
  | anClear =>
    simp only [exec, execAnClear, Host.Outcome.next.injEq] at h
    exact .inr (.inl ⟨_, by simp [Instr.opcode], h.symm⟩)
  | anWriteDigit pos dp val =>
    simp only [exec, execAnWriteDigit, Host.Outcome.next.injEq] at h
    rcases writeChar_cases (positionOperand pos) (digitOperand val) dp s with ⟨p, c, -, -, e⟩ | e
    · exact .inr (.inl ⟨_, by simp [Instr.opcode], h.symm.trans e⟩)
    · exact .inr (.inr (.inr (.inr (.inr ⟨_, by simp, by simp, h.symm.trans e⟩))))
  | anWriteAscii pos dp val =>
    simp only [exec, execAnWriteAscii, Host.Outcome.next.injEq] at h
    rcases writeChar_cases (positionOperand pos) (charOperand val) dp s with ⟨p, c, -, -, e⟩ | e
    · exact .inr (.inl ⟨_, by simp [Instr.opcode], h.symm.trans e⟩)
    · exact .inr (.inr (.inr (.inr (.inr ⟨_, by simp, by simp, h.symm.trans e⟩))))
  | anFormatTemp temp =>
    simp only [exec, execAnFormatTemp, Host.Outcome.next.injEq] at h
    exact .inr (.inl ⟨_, by simp [Instr.opcode], h.symm⟩)
  | anSerialize =>
    simp only [exec, execAnSerialize, Host.Outcome.next.injEq] at h
    exact .inr (.inr (.inl ⟨_, _, by simp, h.symm⟩))
  | anCmdBlink val =>
    simp only [exec, execAnCmdBlink, Host.Outcome.next.injEq] at h
    exact .inr (.inr (.inl ⟨_, _, by simp, h.symm⟩))
  | anCmdBrightness val =>
    simp only [exec, execAnCmdBrightness, Host.Outcome.next.injEq] at h
    exact .inr (.inr (.inl ⟨_, _, by simp, h.symm⟩))
  | fbConfigure w g =>
    simp only [exec, execFbConfigure, Host.Outcome.next.injEq] at h
    split at h
    · next hs => exact .inr (.inr (.inr (.inl ⟨w, g, rfl, supported_iff.mp hs, h.symm⟩)))
    · exact .inr (.inr (.inr (.inr (.inr ⟨_, by simp, by simp, h.symm⟩))))
  | fbSetPixel x y c =>
    simp only [exec, execFbSetPixel] at h
    split at h
    · next hv =>
      split at h
      · next hb =>
        split at h
        · next u hu =>
          obtain ⟨hi, rfl⟩ := fbModify_eq_some.mp hu
          obtain ⟨hx, hy⟩ := inBounds_iff.mp hb
          exact .inr (.inr (.inr (.inr (.inl ⟨x, y, c, rfl, hv, hx, hy, hi, (Host.Outcome.next.inj h).symm⟩))))
        · exact absurd h (by simp)
      · exact .inr (.inr (.inr (.inr (.inr ⟨_, by simp, by simp, (Host.Outcome.next.inj h).symm⟩))))
    · exact .inr (.inr (.inr (.inr (.inr ⟨_, by simp, by simp, (Host.Outcome.next.inj h).symm⟩))))
  | fbSerialize =>
    simp only [exec, execFbSerialize, Host.Outcome.next.injEq] at h
    split at h
    · exact .inr (.inr (.inl ⟨_, _, by simp, h.symm⟩))
    · exact .inr (.inr (.inr (.inr (.inr ⟨_, by simp, by simp, h.symm⟩))))

/-- The one stop: a pixel whose index has no byte. -/
theorem exec_not_next {i : Instr} {s : State} (h : ∀ t, exec i s ≠ .next t) :
    ∃ x y c, i = .fbSetPixel x y c ∧ s.cfgValid = true ∧ inBounds s x y = true ∧
      fbBytes s.params ≤ pixelIndex s.cfgW x y ∧ exec i s = .fault .fbIndexOutside := by
  cases i with
  | fbSetPixel x y c =>
    by_cases hv : s.cfgValid
    · by_cases hb : inBounds s x y
      · cases hu : s.fbModify (pixelIndex s.cfgW x y) (applyColor c (pixelBit y)) with
        | some u => exact absurd (by simp [exec, execFbSetPixel, hv, hb, hu]) (h (respond false u))
        | none => exact ⟨x, y, c, rfl, hv, hb, fbModify_eq_none.mp hu, by simp [exec, execFbSetPixel, hv, hb, hu]⟩
      · exact absurd (by simp [exec, execFbSetPixel, hv, hb]) (h (raise .bounds s))
    · exact absurd (by simp [exec, execFbSetPixel, hv]) (h (raise .notConfigured s))
  | _ => exact absurd rfl (h _)

/-- An accepted word is run, or ends with ILLEGAL. -/
theorem acceptCommand_cases (cmd data : Word) (s : State) :
    (∃ i, decode cmd data = .ok i ∧ acceptCommand cmd data s = exec i s) ∨
    (∃ e, decode cmd data = .error e ∧ acceptCommand cmd data s = .next (raise .illegal s)) := by
  unfold acceptCommand
  cases decode cmd data with
  | ok i => exact .inl ⟨i, rfl, rfl⟩
  | error e => exact .inr ⟨e, rfl, rfl⟩

/-! ## Edges that bring a command to its end -/

@[simp] theorem delivers_nil (n : Nat) : delivers n [] = false := by cases n <;> rfl

@[simp] theorem delivers_zero_cons (p : Pins) (rest : List Pins) :
    delivers 0 (p :: rest) = (!p.rst && (if p.rspReady then rest.isEmpty else delivers 0 rest)) := rfl

@[simp] theorem delivers_succ_cons (n : Nat) (p : Pins) (rest : List Pins) :
    delivers (n + 1) (p :: rest) = (!p.rst && (if p.outReady then delivers n rest else delivers (n + 1) rest)) := rfl

/-- Without a stall: an edge for each byte and one for the response. -/
theorem delivers_take (n : Nat) : delivers n (List.replicate (n + 1) Pins.take) = true := by
  induction n with
  | zero => rfl
  | succ n ih => exact ih

/-! ## The clock edge -/

/-- What an edge of a command in progress can do. -/
theorem transfer_cases (p : Pins) (s : State) :
    (∃ b rest, s.pendingBytes = b :: rest ∧ p.outReady = true ∧ transfer p s = takeByte b rest s) ∨
    (∃ r, s.pendingBytes = [] ∧ s.pendingResponse = some r ∧ p.rspReady = true ∧ transfer p s = takeResponse r s) ∨
    transfer p s = s := by
  unfold transfer
  cases hb : s.pendingBytes with
  | cons b rest =>
    cases hr : p.outReady with
    | true => exact .inl ⟨b, rest, rfl, rfl, by simp⟩
    | false => exact .inr (.inr (by simp))
  | nil =>
    cases hp : s.pendingResponse with
    | none => exact .inr (.inr rfl)
    | some r =>
      cases hr : p.rspReady with
      | true => exact .inr (.inl ⟨r, rfl, rfl, rfl, by simp⟩)
      | false => exact .inr (.inr (by simp))

/-- What a clock edge can do: reset, acceptance by a ready block, a transfer of a busy one, or nothing. -/
theorem clockEdge_cases (p : Pins) (s : State) :
    (p.rst = true ∧ clockEdge p s = .next (resetEdge s)) ∨
    (p.rst = false ∧ s.busy = false ∧ p.cmdValid = true ∧ clockEdge p s = acceptCommand p.cmd p.cmdData s) ∨
    (p.rst = false ∧ s.busy = false ∧ p.cmdValid = false ∧ clockEdge p s = .next s) ∨
    (p.rst = false ∧ s.busy = true ∧ clockEdge p s = .next (transfer p s)) := by
  unfold clockEdge State.cmdReady
  cases p.rst <;> cases s.busy <;> cases p.cmdValid <;> simp

/-- A step is the edge of the next input ports, or of idle ones. -/
theorem step_eq (s : State) :
    (∃ p rest, s.inputs = p :: rest ∧ step s = clockEdge p { s with inputs := rest }) ∨
    (s.inputs = [] ∧ step s = clockEdge Pins.idle s) := by
  cases hs : s.inputs with
  | nil => exact .inr ⟨rfl, by simp [step, nextEdge, hs]⟩
  | cons p rest => exact .inl ⟨p, rest, rfl, by simp [step, nextEdge, hs]⟩

/-- Running no step. -/
theorem run_zero (s : State) : Host.Core.run core 0 s = .next s := rfl

theorem run_succ (M : Host.Core) {s t : M.State} (n : Nat) (h : M.step s = .next t) : M.run (n + 1) s = M.run n t := by
  simp only [Host.Core.run, h]

/-- Running a step that answers a next state, and the rest from there. -/
theorem run_succ_of_step {s t : State} (n : Nat) (h : step s = .next t) :
    Host.Core.run core (n + 1) s = Host.Core.run core n t :=
  run_succ core n h

/-- The rest of the inputs is nothing an executed command reads or changes. -/
theorem exec_inputs (i : Instr) (s : State) (q : List Pins) :
    exec i { s with inputs := q } =
      match exec i s with
      | .next t => .next { t with inputs := q }
      | .fault f => .fault f
      | .refused r => .refused r := by
  cases i with
  | fsmCheck temp =>
    simp only [exec, execFsmCheck]
    cases nextPhase s.params s.phase temp <;> rfl
  | anWriteDigit p d v =>
    simp only [exec, execAnWriteDigit]
    cases positionOperand p <;> cases digitOperand v <;> rfl
  | anWriteAscii p d v =>
    simp only [exec, execAnWriteAscii]
    cases positionOperand p <;> cases charOperand v <;> rfl
  | fbConfigure w g =>
    simp only [exec, execFbConfigure]
    cases supported s.params w g <;> rfl
  | fbSetPixel x y c =>
    show execFbSetPixel x y c { s with inputs := q } = match execFbSetPixel x y c s with
      | .next t => .next { t with inputs := q }
      | .fault f => .fault f
      | .refused r => .refused r
    have hb : inBounds { s with inputs := q } x y = inBounds s x y := rfl
    have hm : ∀ f, State.fbModify { s with inputs := q } (pixelIndex s.cfgW x y) f =
        (s.fbModify (pixelIndex s.cfgW x y) f).map (fun t => { t with inputs := q }) := fun f => by
      unfold State.fbModify
      by_cases hi : pixelIndex s.cfgW x y < fbBytes s.params
      · rw [if_pos hi, if_pos hi]; rfl
      · rw [if_neg hi, if_neg hi]; rfl
    unfold execFbSetPixel
    simp only [hb, hm]
    by_cases hv : s.cfgValid = true
    · rw [if_pos hv, if_pos hv]
      by_cases hi : inBounds s x y = true
      · rw [if_pos hi, if_pos hi]
        cases s.fbModify (pixelIndex s.cfgW x y) (applyColor c (pixelBit y)) <;> rfl
      · rw [if_neg hi, if_neg hi]; rfl
    · rw [if_neg hv, if_neg hv]; rfl
  | fbSerialize =>
    simp only [exec, execFbSerialize]
    by_cases hv : s.cfgValid = true
    · simp only [if_pos hv]; rfl
    · simp only [if_neg hv]; rfl
  | _ => rfl

end Sys2Proof.Laws
end

