-- ==== Sys2Proof/Laws/PerInstr.lean ====
section
/-! SUPPORT. The per-instruction families of LAWS.json, one lemma per constructor of `Instr`. -/

namespace Sys2Proof.Laws

/-- The opcode field of a command's word is the code of its opcode (30_encoding.md R61, R69). -/
def OpcodeField.Statement (i : Instr) : Prop := opcOf (encode i).1 = i.opcode.code

theorem OpcodeField.fsmCheck (t : Int) : OpcodeField.Statement (.fsmCheck t) := opcOf_wordN _
theorem OpcodeField.anClear : OpcodeField.Statement .anClear := opcOf_wordN _
theorem OpcodeField.anWriteDigit (p : Nat) (d : Bool) (v : Nat) : OpcodeField.Statement (.anWriteDigit p d v) :=
  opcOf_wordA _ _ _ _
theorem OpcodeField.anWriteAscii (p : Nat) (d : Bool) (v : Nat) : OpcodeField.Statement (.anWriteAscii p d v) :=
  opcOf_wordA _ _ _ _
theorem OpcodeField.anFormatTemp (t : Int) : OpcodeField.Statement (.anFormatTemp t) := opcOf_wordN _
theorem OpcodeField.anSerialize : OpcodeField.Statement .anSerialize := opcOf_wordN _
theorem OpcodeField.anCmdBlink (v : Nat) : OpcodeField.Statement (.anCmdBlink v) := opcOf_wordV _ _
theorem OpcodeField.anCmdBrightness (v : Nat) : OpcodeField.Statement (.anCmdBrightness v) := opcOf_wordV _ _
theorem OpcodeField.fbConfigure (w h : Nat) : OpcodeField.Statement (.fbConfigure w h) := opcOf_wordG _ _ _
theorem OpcodeField.fbSetPixel (x y : Nat) (c : Color) : OpcodeField.Statement (.fbSetPixel x y c) :=
  opcOf_wordP _ _ _ _
theorem OpcodeField.fbSerialize : OpcodeField.Statement .fbSerialize := opcOf_wordN _

/-- A command's word has no reserved bit of its format set (30_encoding.md R70, R72). -/
def ReservedBitsClear.Statement (i : Instr) : Prop := (encode i).1 &&& reservedMask i.opcode.format = 0#32

theorem ReservedBitsClear.fsmCheck (t : Int) : ReservedBitsClear.Statement (.fsmCheck t) := reserved_wordN _
theorem ReservedBitsClear.anClear : ReservedBitsClear.Statement .anClear := reserved_wordN _
theorem ReservedBitsClear.anWriteDigit (p : Nat) (d : Bool) (v : Nat) :
    ReservedBitsClear.Statement (.anWriteDigit p d v) := reserved_wordA _ _ _ _
theorem ReservedBitsClear.anWriteAscii (p : Nat) (d : Bool) (v : Nat) :
    ReservedBitsClear.Statement (.anWriteAscii p d v) := reserved_wordA _ _ _ _
theorem ReservedBitsClear.anFormatTemp (t : Int) : ReservedBitsClear.Statement (.anFormatTemp t) := reserved_wordN _
theorem ReservedBitsClear.anSerialize : ReservedBitsClear.Statement .anSerialize := reserved_wordN _
theorem ReservedBitsClear.anCmdBlink (v : Nat) : ReservedBitsClear.Statement (.anCmdBlink v) := reserved_wordV _ _
theorem ReservedBitsClear.anCmdBrightness (v : Nat) : ReservedBitsClear.Statement (.anCmdBrightness v) :=
  reserved_wordV _ _
theorem ReservedBitsClear.fbConfigure (w h : Nat) : ReservedBitsClear.Statement (.fbConfigure w h) :=
  reserved_wordG _ _ _
theorem ReservedBitsClear.fbSetPixel (x y : Nat) (c : Color) : ReservedBitsClear.Statement (.fbSetPixel x y c) :=
  reserved_wordP _ _ _ _
theorem ReservedBitsClear.fbSerialize : ReservedBitsClear.Statement .fbSerialize := reserved_wordN _

end Sys2Proof.Laws
end

