-- ==== Sys2Proof/Tests/Slice0.lean ====
section
/-! SUPPORT. The model's own tests: ill-formed operands, decoded words, one or two vectors of 95_test_vectors.md for each
command, and a witness for the hypotheses of each statement. -/

namespace Sys2Proof.Tests

open Sys2Proof.Machine

/-! ## Well-formedness: an operand that does not fit its field is refused (30_encoding.md R77) -/

theorem test_illformed_temps :
    Instr.wellFormed (.fsmCheck (-2147483649)) = false ∧ Instr.wellFormed (.fsmCheck 2147483648) = false ∧
    Instr.wellFormed (.anFormatTemp (-2147483649)) = false ∧ Instr.wellFormed (.anFormatTemp 2147483648) = false := by decide

/-- The first is the example of R77, `an.digit 16, 3`. -/
theorem test_illformed_writes :
    Instr.wellFormed (.anWriteDigit 16 false 3) = false ∧ Instr.wellFormed (.anWriteDigit 3 false 256) = false ∧
    Instr.wellFormed (.anWriteAscii 16 false 3) = false ∧ Instr.wellFormed (.anWriteAscii 3 false 256) = false := by decide

/-- The fifth is the example of R77, `fb.px 300, 0, white`. -/
theorem test_illformed_values :
    Instr.wellFormed (.anCmdBlink 256) = false ∧ Instr.wellFormed (.anCmdBrightness 256) = false ∧
    Instr.wellFormed (.fbConfigure 256 0) = false ∧ Instr.wellFormed (.fbConfigure 0 256) = false ∧
    Instr.wellFormed (.fbSetPixel 300 0 .white) = false ∧ Instr.wellFormed (.fbSetPixel 0 256 .white) = false := by decide

/-! ## Decoding: words written out field by field from 30_encoding.md R62 and R69 -/

/-- Format T: `OPC` in 31:28, the rest zero, `TEMP` on `cmd_data`. -/
theorem test_decode_T :
    decode (0b0001#4 ++ 0b0000000000000000000000000000#28) 0xFFFFFFFF#32 = .ok (.fsmCheck (-1)) ∧
    decode (0b0101#4 ++ 0b0000000000000000000000000000#28) 0x80000000#32 = .ok (.anFormatTemp (-2147483648)) := by decide

/-- Format N: `OPC` in 31:28, the rest zero. -/
theorem test_decode_N :
    decode (0b0010#4 ++ 0b0000000000000000000000000000#28) 0xFFFFFFFF#32 = .ok .anClear ∧
    decode (0b0110#4 ++ 0b0000000000000000000000000000#28) 0#32 = .ok .anSerialize ∧
    decode (0b1011#4 ++ 0b0000000000000000000000000000#28) 0#32 = .ok .fbSerialize := by decide

/-- Format A: `OPC`, `POS` 27:24, `DP` 23, zeros 22:8, `VAL` 7:0. -/
theorem test_decode_A :
    decode (0b0011#4 ++ 0b0110#4 ++ 0b1#1 ++ 0b000000000000000#15 ++ 0b00000101#8) 0#32 = .ok (.anWriteDigit 6 true 5) ∧
    decode (0b0100#4 ++ 0b1001#4 ++ 0b0#1 ++ 0b000000000000000#15 ++ 0b10000001#8) 0#32 =
      .ok (.anWriteAscii 9 false 129) := by decide

/-- Format V: `OPC`, zeros 27:8, `VAL` 7:0. -/
theorem test_decode_V :
    decode (0b0111#4 ++ 0b00000000000000000000#20 ++ 0b00010010#8) 0#32 = .ok (.anCmdBlink 18) ∧
    decode (0b1000#4 ++ 0b00000000000000000000#20 ++ 0b11000000#8) 0#32 = .ok (.anCmdBrightness 192) := by decide

/-- Formats G and P: `H` or `Y` in 15:8, `W` or `X` in 7:0, `COLOR` in 17:16. -/
theorem test_decode_G_P :
    decode (0b1001#4 ++ 0b000000000000#12 ++ 0b00100000#8 ++ 0b10000000#8) 0#32 = .ok (.fbConfigure 128 32) ∧
    decode (0b1010#4 ++ 0b0000000000#10 ++ 0b00#2 ++ 0b00001001#8 ++ 0b00000101#8) 0#32 = .ok (.fbSetPixel 5 9 .black) ∧
    decode (0b1010#4 ++ 0b0000000000#10 ++ 0b01#2 ++ 0b00001001#8 ++ 0b00000101#8) 0#32 = .ok (.fbSetPixel 5 9 .white) ∧
    decode (0b1010#4 ++ 0b0000000000#10 ++ 0b10#2 ++ 0b00001001#8 ++ 0b00000101#8) 0#32 =
      .ok (.fbSetPixel 5 9 .inverse) := by decide

/-- The illegal words of 95_test_vectors.md 2.1. -/
theorem test_decode_illegal :
    [0x00000000#32, 0xC0000000#32, 0xD0000000#32, 0xE0000000#32, 0xF0000000#32].map (fun w => decode w 0#32) =
      List.replicate 5 (.error .reservedOpcode) ∧
    [0x10000001#32, 0x20000001#32, 0x30000100#32, 0x30400000#32, 0x70000100#32, 0x90010000#32, 0xA0040000#32,
        0xB0000001#32].map (fun w => decode w 0#32) = List.replicate 8 (.error .reservedBit) ∧
    decode 0xA0031000#32 0#32 = .error .reservedColor := by decide

/-- A table word of 32 bits has no `cmd_data`; one of 64 bits has it in 63:32. -/
theorem test_table_words :
    decodeTableWord 32 0x10000000 = some (.fsmCheck 0) ∧
    decodeTableWord 64 0xFFFFFFFF10000000 = some (.fsmCheck (-1)) ∧ decodeTableWord 32 0xC0000000 = none := by decide

/-- Every format's line of 30_encoding.md R77 with a form R79 does not show: hex, `dp` on a code, a signed temperature. -/
theorem test_assembler_forms :
    assembleLine "an.ascii 0x7, 0x7F, dp" = some (0x4780007F#32, 0#32) ∧
    assembleLine "fsm.check -1" = some (0x10000000#32, 0xFFFFFFFF#32) ∧
    assembleLine "fb.set 95, 15" = some (0xA0010F5F#32, 0#32) ∧ assembleLine "an.clear 1" = none := by decide

/-! ## Small states of the test devices (95_test_vectors.md section 0) -/

/-- `S0` with the devices TP, TF, U600 and GEO3. -/
def s0 : State := State.resetWith Params.testBench

/-- The state after an accepted word, its command brought to its end; the state itself where there is none. -/
def after (cmd data : Word) (s : State) : State :=
  match acceptCommand cmd data s with
  | .next t => t.settle
  | _ => s

/-- The response to an accepted word. -/
def responseTo (cmd data : Word) (s : State) : Option Response :=
  match acceptCommand cmd data s with
  | .next t => t.pendingResponse
  | _ => none

/-- The stream bytes of an accepted word. -/
def bytesOf (cmd data : Word) (s : State) : List StreamByte :=
  match acceptCommand cmd data s with
  | .next t => t.pendingBytes
  | _ => []

/-- `s0` with the geometry `(128, 32)` accepted and the pixel `(3, 10)` lit. -/
def drawn : State := { s0 with cfgValid := true, cfgW := 128#8, cfgH := 32#8, fb := [(132, 0x04#8)] }

/-- `s0` with one stream byte and a response owed. -/
def sending : State :=
  { s0 with busy := true, pendingBytes := [⟨.command, 0x85#8, true⟩], pendingResponse := some ⟨.ok, false, .atTemp⟩ }

/-- `s0` with a response owed. -/
def answering : State := { s0 with busy := true, pendingResponse := some ⟨.ok, false, .atTemp⟩ }

/-! ## Vectors -/

/-- 95_test_vectors.md 2.2, the rows of `Off` and `HeatingUp`. -/
theorem test_fsm_check_rising :
    responseTo 0x10000000#32 0x00003C8B#32 { s0 with phase := .off } = some ⟨.ok, false, .off⟩ ∧
    responseTo 0x10000000#32 0x00003C8C#32 { s0 with phase := .off } = some ⟨.ok, true, .heatingUp⟩ ∧
    responseTo 0x10000000#32 0x80000000#32 { s0 with phase := .off } = some ⟨.ok, false, .off⟩ ∧
    responseTo 0x10000000#32 0x000038A3#32 { s0 with phase := .heatingUp } = some ⟨.ok, true, .off⟩ ∧
    responseTo 0x10000000#32 0x000038A4#32 { s0 with phase := .heatingUp } = some ⟨.ok, false, .heatingUp⟩ ∧
    responseTo 0x10000000#32 0x00007723#32 { s0 with phase := .heatingUp } = some ⟨.ok, false, .heatingUp⟩ ∧
    responseTo 0x10000000#32 0x00007724#32 { s0 with phase := .heatingUp } = some ⟨.ok, true, .atTemp⟩ := by decide

/-- 95_test_vectors.md 2.2, the rows of `AtTemp` and `CoolingDown`. -/
theorem test_fsm_check_falling :
    responseTo 0x10000000#32 0x0000733D#32 s0 = some ⟨.ok, false, .atTemp⟩ ∧
    responseTo 0x10000000#32 0x0000733C#32 s0 = some ⟨.ok, true, .coolingDown⟩ ∧
    responseTo 0x10000000#32 0x000038A5#32 { s0 with phase := .coolingDown } = some ⟨.ok, false, .coolingDown⟩ ∧
    responseTo 0x10000000#32 0x000038A4#32 { s0 with phase := .coolingDown } = some ⟨.ok, true, .off⟩ ∧
    responseTo 0x10000000#32 0x00007723#32 { s0 with phase := .coolingDown } = some ⟨.ok, false, .coolingDown⟩ ∧
    responseTo 0x10000000#32 0x00007724#32 { s0 with phase := .coolingDown } = some ⟨.ok, true, .atTemp⟩ := by decide

/-- 41_alnum_encoder.md R93. -/
theorem test_an_clear : (after 0x20000000#32 0xFFFFFFFF#32 { s0 with an := Vector.replicate 8 0x4033#16 }).an = s0.an := by
  decide

/-- 95_test_vectors.md 2.3. -/
theorem test_an_write_digit :
    (after 0x31800005#32 0#32 (after 0x30000009#32 0#32 s0)).an =
      #v[0x0039#16, 0x4035#16, 0#16, 0#16, 0#16, 0#16, 0#16, 0#16] ∧
    responseTo 0x3000000A#32 0#32 s0 = some ⟨.bounds, false, .atTemp⟩ ∧
    responseTo 0x38000001#32 0#32 s0 = some ⟨.bounds, false, .atTemp⟩ := by decide

/-- 95_test_vectors.md 2.3. -/
theorem test_an_write_ascii :
    (after 0x47800021#32 0#32 (after 0x4000007F#32 0#32 s0)).an =
      #v[0x007F#16, 0#16, 0#16, 0#16, 0#16, 0#16, 0#16, 0x4021#16] ∧
    responseTo 0x40000080#32 0#32 s0 = some ⟨.bounds, false, .atTemp⟩ ∧
    responseTo 0x48000041#32 0#32 s0 = some ⟨.bounds, false, .atTemp⟩ := by decide

/-- 95_test_vectors.md 2.4, modes FOUR and THREE. -/
theorem test_an_format_temp_digits :
    (after 0x50000000#32 0x00001597#32 (after 0x37800003#32 0#32 s0)).an =
      #v[0x0035#16, 0x4035#16, 0x0032#16, 0x0037#16, 0#16, 0#16, 0#16, 0#16] ∧
    (after 0x50000000#32 0x00003039#32 s0).an =
      #v[0x0031#16, 0x0032#16, 0x4033#16, 0x0034#16, 0#16, 0#16, 0#16, 0#16] := by decide

/-- 95_test_vectors.md 2.4, the ends of the ranges. -/
theorem test_an_format_temp_ranges :
    [0x80000000#32, 0xFFFFFFFF#32, 0x000003E7#32, 0x0000EA60#32].map (fun d => (after 0x50000000#32 d s0).an) =
      List.replicate 4 #v[0x0045#16, 0x0052#16, 0x0052#16, 0x0021#16, 0#16, 0#16, 0#16, 0#16] ∧
    (after 0x50000000#32 0x000003E8#32 s0).an =
      #v[0x0031#16, 0x4030#16, 0x0030#16, 0x0030#16, 0#16, 0#16, 0#16, 0#16] ∧
    (after 0x50000000#32 0x0000EA5F#32 s0).an =
      #v[0x0035#16, 0x0039#16, 0x4039#16, 0x0039#16, 0#16, 0#16, 0#16, 0#16] := by decide

/-- 95_test_vectors.md 2.5, after `an.digit 7, 3, dp`. -/
theorem test_an_serialize :
    bytesOf 0x60000000#32 0#32 (after 0x37800003#32 0#32 s0) =
      List.replicate 15 ⟨.alnum, 0x00#8, false⟩ ++ [⟨.alnum, 0x33#8, false⟩, ⟨.alnum, 0x40#8, true⟩] := by decide

/-- 95_test_vectors.md 2.5. -/
theorem test_an_cmd_blink :
    [0x70000000#32, 0x70000001#32, 0x70000002#32, 0x70000003#32, 0x70000004#32, 0x700000FF#32].map
        (fun w => (bytesOf w 0#32 s0).map StreamByte.byte) =
      [[0x81#8], [0x83#8], [0x85#8], [0x87#8], [0x87#8], [0x87#8]] := by decide

/-- 95_test_vectors.md 2.5. -/
theorem test_an_cmd_brightness :
    [0x80000000#32, 0x80000007#32, 0x8000000F#32, 0x80000010#32, 0x80000014#32, 0x800000FF#32].map
        (fun w => (bytesOf w 0#32 s0).map StreamByte.byte) =
      [[0xE0#8], [0xE7#8], [0xEF#8], [0xEF#8], [0xEF#8], [0xEF#8]] := by decide

/-- 95_test_vectors.md 2.6, rows 3, 4 and 18. -/
theorem test_fb_configure :
    responseTo 0x90004040#32 0#32 s0 = some ⟨.construction, false, .atTemp⟩ ∧
    (after 0x90002080#32 0#32 s0).cfgW = 128#8 ∧ (after 0x90002080#32 0#32 s0).cfgH = 32#8 ∧
    (after 0x90001060#32 0#32 drawn).fb = [] := by decide

/-- 95_test_vectors.md 2.6, rows 5 to 9 and 12. -/
theorem test_fb_set_pixel :
    (after 0xA0020A03#32 0#32 drawn).fb = [] ∧
    (after 0xA0010700#32 0#32 (after 0xA0011F7F#32 0#32 (after 0xA0010000#32 0#32 drawn))).fb =
      [(1, 0x81#8), (132, 0x04#8), (512, 0x80#8)] := by decide

/-- 95_test_vectors.md 2.6, rows 1, 10, 11 and 15. -/
theorem test_fb_set_pixel_statuses :
    responseTo 0xA0010000#32 0#32 s0 = some ⟨.notConfigured, false, .atTemp⟩ ∧
    responseTo 0xA0010080#32 0#32 drawn = some ⟨.bounds, false, .atTemp⟩ ∧
    responseTo 0xA0012000#32 0#32 drawn = some ⟨.bounds, false, .atTemp⟩ ∧
    responseTo 0xA0031000#32 0#32 drawn = some ⟨.illegal, false, .atTemp⟩ := by decide

set_option maxRecDepth 10000 in
/-- 95_test_vectors.md V-S7 and 2.6, row 2: 1025 bytes, byte 132 is `0x04`. -/
theorem test_fb_serialize :
    responseTo 0xB0000000#32 0#32 s0 = some ⟨.notConfigured, false, .atTemp⟩ ∧
    bytesOf 0xB0000000#32 0#32 drawn =
      ⟨.framebuffer, 0x40#8, false⟩ :: (List.replicate 131 ⟨.framebuffer, 0x00#8, false⟩ ++
        ⟨.framebuffer, 0x04#8, false⟩ ::
          (List.replicate 891 ⟨.framebuffer, 0x00#8, false⟩ ++ [⟨.framebuffer, 0x00#8, true⟩])) := by decide

/-- The table word of a row offered right after reset is the command the next step runs. -/
theorem test_first_step_after_reset :
    ∃ t, step (State.reset.withFetchWord 32 0x80000014) = .next t ∧ t.pendingBytes = [⟨.command, 0xEF#8, true⟩] :=
  ⟨_, rfl, by decide⟩

/-! ## Witnesses: states and operands that meet the hypotheses of each statement, at the ends of their ranges -/

theorem test_witness_legal_s0 : s0.Legal where
  fbForm := rfl
  tagByte := rfl
  geometry := by simp [s0, State.resetWith]
  unconfigured := fun _ => ⟨rfl, rfl⟩
  beyond := fun a h => if_neg (by omega)
  busyResponse := rfl
  idleQuiet := fun _ => rfl
  responsePhase := by simp [s0, State.resetWith]
  failedQuiet := by simp [s0, State.resetWith]
  lastFlags := rfl
  oneChannel := by simp [s0, State.resetWith]
  recorded := by simp [s0, State.resetWith]

/-- The pixel bytes of `drawn` are 1 to 512. -/
theorem test_witness_legal_drawn : drawn.Legal where
  fbForm := by decide
  tagByte := by decide
  geometry := fun _ => by decide
  unconfigured := fun h => absurd h (by decide)
  beyond := fun a h => by
    have h : 512 < a := h
    have h1 : ¬ 132 = a := by omega
    exact (if_neg h1).trans (if_neg (by omega))
  busyResponse := rfl
  idleQuiet := fun _ => rfl
  responsePhase := by simp [drawn, s0, State.resetWith]
  failedQuiet := by simp [drawn, s0, State.resetWith]
  lastFlags := rfl
  oneChannel := by simp [drawn, s0, State.resetWith]
  recorded := by simp [drawn, s0, State.resetWith]

/-- StepKeepsLegal, LegalStepAlwaysAnswersNext, ParametersAreFixed: legal states whose step goes on, one with nothing
offered and one that accepts a command. -/
theorem test_witness_legal_step :
    (s0.Legal ∧ ∃ t, step s0 = .next t) ∧
    ({ drawn with inputs := [Pins.offer 0xA0010000#32 0#32] }.Legal ∧
      ∃ t, step { drawn with inputs := [Pins.offer 0xA0010000#32 0#32] } = .next t ∧ t.busy = true) :=
  ⟨⟨test_witness_legal_s0, _, rfl⟩, ⟨{ test_witness_legal_drawn with }, _, rfl, rfl⟩⟩

/-- DecodeOfEncodeIsTheCommand, AssemblerNeverTruncates. -/
theorem test_witness_wellformed :
    Instr.wellFormed (.fsmCheck (-2147483648)) = true ∧ Instr.wellFormed (.anFormatTemp 2147483647) = true ∧
    Instr.wellFormed (.anWriteDigit 15 true 255) = true ∧ Instr.wellFormed (.anWriteAscii 0 false 0) = true ∧
    Instr.wellFormed (.anCmdBlink 255) = true ∧ Instr.wellFormed (.anCmdBrightness 0) = true ∧
    Instr.wellFormed (.fbConfigure 255 255) = true ∧ Instr.wellFormed (.fbSetPixel 255 0 .inverse) = true ∧
    Instr.wellFormed .anClear = true ∧ Instr.wellFormed (.anCmdBlink 256) = false := by decide

set_option maxRecDepth 10000 in
/-- AcceptedWordSpellsOneCommand, FormatFieldsAreTheNamedBits: words with every field at its largest value, and the four
colors. -/
theorem test_witness_masked_words :
    0x3F8000FF#32 &&& 0xF07FFF00#32 = 0x30000000#32 ∧ 0x4F8000FF#32 &&& 0xF07FFF00#32 = 0x40000000#32 ∧
    0x700000FF#32 &&& 0xFFFFFF00#32 = 0x70000000#32 ∧ 0x800000FF#32 &&& 0xFFFFFF00#32 = 0x80000000#32 ∧
    0x9000FFFF#32 &&& 0xFFFF0000#32 = 0x90000000#32 ∧
    (∀ c < 4, (0xA000FFFF#32 + BitVec.ofNat 32 (c * 65536)) &&& 0xFFFC0000#32 = 0xA0000000#32 ∧
      (0xA000FFFF#32 + BitVec.ofNat 32 (c * 65536)).toNat / 2 ^ 16 % 4 = c) ∧
    decode 0x3F8000FF#32 0#32 = .ok (.anWriteDigit 15 true 255) ∧
    (Instr.fsmCheck 0).opcode.format = .T := by decide

set_option maxRecDepth 10000 in
/-- DecoderRejectsByTheFirstFailingCheck, IllegalWordsHaveNoEffect, CmdDataIsReadByFormatTOnly: each clause at the ends of
its opcode range. -/
theorem test_witness_opcode_ranges :
    (0x0FFFFFFF#32).toNat / 2 ^ 28 = 0x0 ∧ (0xC0000000#32).toNat / 2 ^ 28 = 0xC ∧ (0xFFFFFFFF#32).toNat / 2 ^ 28 = 0xF ∧
    (0x10000001#32).toNat / 2 ^ 28 = 0x1 ∧ 0x10000001#32 &&& 0x0FFFFFFF#32 ≠ 0#32 ∧
    (0xBFFFFFFF#32).toNat / 2 ^ 28 = 0xB ∧ 0xBFFFFFFF#32 &&& 0x0FFFFFFF#32 ≠ 0#32 ∧
    (0xA0030000#32).toNat / 2 ^ 28 = 0xA ∧ 0xA0030000#32 &&& 0x0FFC0000#32 = 0#32 ∧
    (0xA0030000#32).extractLsb' 16 2 = 0b11#2 ∧ (0xA002FFFF#32).extractLsb' 16 2 ≠ 0b11#2 ∧
    opcOf 0x0FFFFFFF#32 = 0x0#4 ∧ 0xC ≤ (opcOf 0xC0000000#32).toNat ∧ opcOf 0xA0030000#32 = 0xA#4 ∧
    Opcode.ofCode (opcOf 0xB0000001#32) = some .fbSerialize ∧
    0xB0000001#32 &&& reservedMask Opcode.fbSerialize.format ≠ 0#32 ∧
    (opcOf 0x20000000#32).toNat ≠ 0x1 ∧ (opcOf 0x20000000#32).toNat ≠ 0x5 := by decide

/-- The clause `IllegalOnReservedBit` of the eleven commands' statements: one word for each opcode. -/
theorem test_witness_reserved_bits :
    ∀ p ∈ [(Opcode.fsmCheck, 0x18000000#32), (.anClear, 0x20000001#32), (.anWriteDigit, 0x30000100#32),
        (.anWriteAscii, 0x40400000#32), (.anFormatTemp, 0x50000001#32), (.anSerialize, 0x68000000#32),
        (.anCmdBlink, 0x70000100#32), (.anCmdBrightness, 0x88000000#32), (.fbConfigure, 0x90010000#32),
        (.fbSetPixel, 0xA0040000#32), (.fbSerialize, 0xB0000001#32)],
      opcOf p.2 = p.1.code ∧ p.2 &&& reservedMask p.1.format ≠ 0#32 := by decide

/-- BrokenConfigurationIsNotBuilt: a configuration that is built, and one that breaks a constraint. -/
theorem test_witness_build :
    (Params.build RawParams.testBench).isSome = true ∧
    (Params.build { RawParams.testBench with hyst := 0#32 }).isSome = false ∧
    (Params.build { RawParams.testBench with upper := 1001 }).isSome = false ∧
    (Params.build { RawParams.testBench with geoms := [⟨64, 64⟩, ⟨128, 32⟩, ⟨96, 16⟩] }).isSome = false := by decide

/-- ResetEdgeSetsEveryElement: a reset edge in the middle of a payload. -/
theorem test_witness_reset_edge :
    { sending with inputs := [Pins.reset] }.inputs = [Pins.reset] ∧ Pins.reset.rst = true := ⟨rfl, rfl⟩

/-- TransitionTableRowForRow, AtMostOneRowMatches, FsmCheckTakesAtMostOneTransition, NoTransitionIsRepeatable,
ConstantSampleSettles: a sample on each side of every threshold, with and without a transition. -/
theorem test_witness_thresholds :
    upOn Params.testBench = 15500 ∧ dnOn Params.testBench = 14500 ∧ upOff Params.testBench = 30500 ∧
    dnOff Params.testBench = 29500 ∧
    nextPhase Params.testBench .off 15500 = some .heatingUp ∧ nextPhase Params.testBench .off 15499 = none ∧
    nextPhase Params.testBench .heatingUp 30500 = some .atTemp ∧
    nextPhase Params.testBench .heatingUp 14499 = some .off ∧ nextPhase Params.testBench .heatingUp 14500 = none ∧
    nextPhase Params.testBench .atTemp 29500 = some .coolingDown ∧ nextPhase Params.testBench .atTemp 29501 = none ∧
    nextPhase Params.testBench .coolingDown 14500 = some .off ∧
    nextPhase Params.testBench .coolingDown 30500 = some .atTemp ∧
    nextPhase Params.testBench .coolingDown 30499 = none := by decide

/-- AtMostOneRowMatches. -/
theorem test_witness_row : PhaseRow Params.testBench .off 15500 .heatingUp := .offHeatingUp _ (by decide)

/-- NoTransitionIsRepeatable, PortsShowTheState, ResponseChangedAndPhase, TagByteIsNeverOverwritten: a check that runs. -/
theorem test_witness_check_runs :
    nextPhase s0.params s0.phase 29501 = none ∧ ∃ t, exec (.fsmCheck 29501) s0 = .next t := ⟨by decide, _, rfl⟩

/-- OnlyFsmCheckAndResetMoveThePhase, StepRunsTheDecodedCommand. -/
theorem test_witness_phase_moves :
    decode (Pins.offer 0x10000000#32 0#32).cmd (Pins.offer 0x10000000#32 0#32).cmdData = .ok (.fsmCheck 0) ∧
    s0.busy = false ∧
    ∃ t, step { s0 with inputs := [Pins.offer 0x10000000#32 0#32] } = .next t ∧ t.phase ≠ s0.phase :=
  ⟨by decide, rfl, _, rfl, by decide⟩

/-- AnClearZeroesTheBuffer, AnSerializeEmitsSeventeenBytes, SerializationsAreRepeatable. -/
theorem test_witness_serializations_run :
    (∃ t, exec .anClear s0 = .next t) ∧ (∃ t, exec .anSerialize drawn = .next t) ∧
    ∃ t, exec .fbSerialize drawn = .next t := ⟨⟨_, rfl⟩, ⟨_, rfl⟩, _, rfl⟩

/-- AnWriteDigitWritesOneWord, AnWriteAsciiWritesOneWord, PositionFromEightIsBounds: the ends of each range, in a state of
the test devices. -/
theorem test_witness_write_ranges :
    s0.params = Params.testBench ∧ (7 < 8 ∧ 9 ≤ 9) ∧ (8 ≤ 8 ∨ 9 < 9) ∧ (8 ≤ 7 ∨ 9 < 10) ∧ (7 < 8 ∧ 127 ≤ 127) ∧
    (8 ≤ 7 ∨ 127 < 128) := ⟨rfl, by decide⟩

/-- AnFormatTempRendersTheModes, FormatTruncatesWithoutCarry: the ends of the three ranges. -/
theorem test_witness_format_ranges :
    100 * (s0.params.raw.upper : Int) = 60000 ∧ ((1000 : Int) ≤ 1000 ∧ (9999 : Int) < 10000) ∧
    ((10000 : Int) ≤ 10000 ∧ (59999 : Int) < 60000) ∧ ((999 : Int) < 1000 ∨ (60000 : Int) ≤ 999) := by decide

/-- EqualFramebuffersAreEqualData: a buffer in canonical form, and forms that are not. -/
theorem test_witness_canonical :
    Memory.wf 0x40#8 1025 [(1, 0x01#8), (1024, 0x80#8)] = true ∧ Memory.wf 0x40#8 1025 [(1025, 0x01#8)] = false ∧
    Memory.wf 0x40#8 1025 [(1, 0x00#8)] = false ∧ Memory.wf 0x40#8 1025 [(2, 0x01#8), (1, 0x01#8)] = false := by decide

/-- FbConfigureAcceptsOrKeeps: the three geometries and one outside them. -/
theorem test_witness_geometries :
    s0.params = Params.testBench ∧ (⟨128, 64⟩ : Geometry) ∈ s0.params.raw.geoms ∧
    (⟨96, 16⟩ : Geometry) ∈ s0.params.raw.geoms ∧ (⟨64, 64⟩ : Geometry) ∉ s0.params.raw.geoms := ⟨rfl, by decide⟩

/-- ColorChangesOneBit. -/
theorem test_witness_bits : (7 < 8 ∧ 7 < 8) ∧ applyColor .inverse 7 0x01#8 = 0x81#8 := by decide

/-- PixelsHaveTheirOwnBits, FbSetPixelChangesOneByte, FbTurnedAway, FbSerializeEmitsTheWholeBuffer,
InverseTwiceRestoresAndWhiteShows: the corner pixels of a configured legal state, and the first ones outside. -/
theorem test_witness_pixels :
    drawn.Legal ∧ drawn.cfgValid = true ∧ (127 < drawn.cfgW.toNat ∧ 31 < drawn.cfgH.toNat) ∧
    1 + 127 + 31 / 8 * drawn.cfgW.toNat < fbBytes drawn.params ∧
    Memory.wf drawn.params.raw.fbTag (fbBytes drawn.params) drawn.fb = true ∧
    (drawn.cfgW.toNat ≤ 128 ∨ drawn.cfgH.toNat ≤ 0) ∧ (drawn.cfgW.toNat ≤ 0 ∨ drawn.cfgH.toNat ≤ 32) ∧
    drawn.cfgW.toNat * ((drawn.cfgH.toNat + 7) / 8) < 513 ∧ 1024 < fbBytes drawn.params ∧ s0.cfgValid = false :=
  ⟨test_witness_legal_drawn, by decide⟩

set_option maxRecDepth 10000 in
/-- FbSerializeEmitsTheWholeBuffer: its last clause, past the pages. -/
theorem test_witness_beyond : ∃ t b, exec .fbSerialize drawn = .next t ∧ t.pendingBytes[513]? = some b :=
  ⟨_, ⟨.framebuffer, 0x00#8, false⟩, rfl, by decide⟩

/-- InverseTwiceRestoresAndWhiteShows, SerializationsAreRepeatable: a state with the same framebuffer that another command
stands between, its phase and its words changed. -/
theorem test_witness_same_framebuffer :
    drawn.SameFramebuffer { drawn with phase := .off, an := Vector.replicate 8 0x4033#16 } ∧
    Opcode.fsmCheck ∉ [Opcode.anClear, .anWriteDigit, .anWriteAscii, .anFormatTemp] ∧
    Opcode.anClear ∉ [Opcode.fbConfigure, .fbSetPixel] := ⟨⟨rfl, rfl, rfl, rfl, rfl⟩, by decide, by decide⟩

/-- PortsShowTheState: a byte on offer, a response on offer, and a ready block. -/
theorem test_witness_ports :
    (sending.busy = true ∧ sending.pendingBytes = ⟨.command, 0x85#8, true⟩ :: []) ∧ sending.outPins.outChan = some 2#2 ∧
    (answering.busy = true ∧ answering.pendingBytes = []) ∧ answering.outPins.rspStatus = some 0#3 ∧ s0.busy = false := by
  decide

/-- InverseTwiceRestoresAndWhiteShows, TagByteIsNeverOverwritten. -/
theorem test_witness_tag :
    drawn.fbRead 0 = drawn.params.raw.fbTag ∧ (∃ t, exec (.fbSetPixel 127 31 .inverse) drawn = .next t) ∧
    ∃ t, step { drawn with inputs := [Pins.offer 0xA0011F7F#32 0#32] } = .next t := ⟨by decide, ⟨_, rfl⟩, _, rfl⟩

/-- LegalStepAlwaysAnswersNext: its last clause. The geometry `(255, 255)` is none of the test devices', so no command
makes this state. -/
theorem test_witness_no_byte :
    let s : State := { s0 with cfgValid := true, cfgW := 255#8, cfgH := 255#8 }
    s.cfgValid = true ∧ 254 < s.cfgW.toNat ∧ 254 < s.cfgH.toNat ∧ fbBytes s.params ≤ pixelIndex s.cfgW 254 254 := by
  decide

/-- FailedCommandWritesNothing, StatusesAndTheirCommands, StatusPriority, FaultRecordIsNeverCleared: each status other than
OK, and the record it leaves. -/
theorem test_witness_statuses :
    responseTo 0x00000000#32 0#32 s0 = some ⟨.illegal, false, .atTemp⟩ ∧ decode 0x00000000#32 0#32 = .error .reservedOpcode ∧
    responseTo 0x38000001#32 0#32 s0 = some ⟨.bounds, false, .atTemp⟩ ∧
    responseTo 0x90004040#32 0#32 s0 = some ⟨.construction, false, .atTemp⟩ ∧
    responseTo 0xA00100C8#32 0#32 s0 = some ⟨.notConfigured, false, .atTemp⟩ ∧
    (after 0x38000001#32 0#32 s0).faultRecord = some .bounds ∧ (after 0x90004040#32 0#32 s0).faultRecord = none := by decide

/-- FaultRecordIsNeverCleared: a reset edge after a recorded fault. -/
theorem test_witness_fault_kept :
    ∃ t, step { s0 with faultRecord := some .bounds, inputs := [Pins.reset] } = .next t := ⟨_, rfl⟩

/-- FailedCommandWritesNothing: an accepted word that answers. -/
theorem test_witness_failed :
    ∃ t r, acceptCommand 0x00000000#32 0#32 s0 = .next t ∧ t.pendingResponse = some r ∧ r.status ≠ .ok :=
  ⟨_, _, rfl, rfl, by decide⟩

/-- PresentedWordRunsNext. -/
theorem test_witness_presented : decodeTableWord 32 0xB0000000 = some .fbSerialize := by decide

/-- OnlyAReadyBlockAcceptsAnOffer. -/
theorem test_witness_busy_and_ready :
    (sending.busy = true ∧ (Pins.offer 0x20000000#32 0#32).rst = Pins.idle.rst ∧
      (Pins.offer 0x20000000#32 0#32).outReady = Pins.idle.outReady ∧
      (Pins.offer 0x20000000#32 0#32).rspReady = Pins.idle.rspReady) ∧
    (s0.busy = false ∧ Pins.take.rst = false ∧ Pins.take.cmdValid = false) := by decide

/-- BytesThenResponse: a byte on offer, a response on offer, taken and not taken. -/
theorem test_witness_offers :
    (sending.busy = true ∧ sending.pendingBytes = ⟨.command, 0x85#8, true⟩ :: []) ∧
    (answering.busy = true ∧ answering.pendingBytes = [] ∧ answering.pendingResponse = some ⟨.ok, false, .atTemp⟩) ∧
    (Pins.take.rst = false ∧ Pins.take.outReady = true ∧ Pins.take.rspReady = true) ∧
    (Pins.idle.rst = false ∧ Pins.idle.outReady = false ∧ Pins.idle.rspReady = false) := by decide

/-- UntakenOutputHoldsTheBlock. -/
theorem test_witness_untaken :
    let edges : List Pins := [⟨false, true, 0x20000000#32, 0#32, false, true⟩, Pins.idle]
    let edges' : List Pins := [⟨false, true, 0x20000000#32, 0#32, true, false⟩, Pins.idle]
    (sending.busy = true ∧ sending.pendingBytes ≠ [] ∧ ∀ p ∈ edges, p.rst = false ∧ p.outReady = false) ∧
    (answering.busy = true ∧ answering.pendingBytes = [] ∧ ∀ p ∈ edges', p.rst = false ∧ p.rspReady = false) := by decide

/-- HandshakeRefinesTheAbstractStep: one byte and a response, with no stall, and with a stall before each. -/
theorem test_witness_refines :
    s0.busy = false ∧ ∃ t, acceptCommand 0x70000002#32 0#32 { s0 with inputs := [Pins.idle] } = .next t ∧
      delivers t.pendingBytes.length [Pins.take, Pins.take] = true ∧
      delivers t.pendingBytes.length [Pins.idle, Pins.take, Pins.offer 0x20000000#32 0#32, Pins.take] = true :=
  ⟨rfl, _, rfl, by decide, by decide⟩

/-- HeldOfferIsTheOneAccepted, its second clause: the offer withdrawn at the edge after. -/
theorem test_witness_withdrawn :
    let p : Pins := ⟨false, true, 0x20000000#32, 0#32, false, true⟩
    let s : State := { answering with inputs := [p, Pins.idle] }
    s.hostHolds ∧ Pins.idle.rst = false ∧ Pins.idle.cmdValid = false ∧ ∃ t, step s = .next t ∧ t.cmdReady = true :=
  ⟨fun _ _ _ h => absurd h (by decide), rfl, rfl, _, rfl, rfl⟩

/-- HeldOfferIsTheOneAccepted: an offer held over the edge that takes the response of the command before. -/
theorem test_witness_held :
    let p : Pins := ⟨false, true, 0x20000000#32, 0#32, false, true⟩
    let s : State := { answering with inputs := [p, p] }
    s.hostHolds ∧ p.rst = false ∧ p.cmdValid = true ∧ s.busy = true ∧ ∃ t, step s = .next t ∧ t.cmdReady = true :=
  ⟨fun _ _ _ _ => ⟨rfl, rfl⟩, rfl, rfl, rfl, _, rfl, rfl⟩

end Sys2Proof.Tests
end

section
/-! PROOFS. The configuration of 00_scope.md R5 and R7: which parameters are built, and what the framebuffer's size is
computed from. -/

namespace Sys2Proof.Proofs

open Sys2Proof.Machine

/-! ## Building a configuration -/

/-- What is built is the raw parameters themselves, under the proof that they meet the constraints. -/
theorem build_eq_some_iff {r : RawParams} {P : Params} : Params.build r = some P ↔ P.raw = r := by
  unfold Params.build
  constructor
  · intro h
    split at h
    next hok => exact (Option.some.inj h) ▸ rfl
    next => exact nomatch h
  · rintro rfl
    exact dif_pos P.ok

/-- 00_scope.md R7: a configuration is refused exactly when a constraint fails. -/
theorem build_isSome_iff {r : RawParams} : (Params.build r).isSome = true ↔ r.ok := by
  rw [Option.isSome_iff_exists]
  constructor
  · rintro ⟨P, hP⟩
    exact build_eq_some_iff.mp hP ▸ P.ok
  · intro hok
    exact ⟨⟨r, hok⟩, build_eq_some_iff.mpr rfl⟩

/-- A list of length three without repetition is three distinct elements, named one by one. -/
theorem length_three_nodup_iff {α : Type} {l : List α} :
    l.length = 3 ∧ l.Nodup ↔ ∃ a b c, l = [a, b, c] ∧ a ≠ b ∧ a ≠ c ∧ b ≠ c := by
  constructor
  · rintro ⟨hlen, hnodup⟩
    obtain ⟨a, b, c, rfl⟩ := List.length_eq_three.mp hlen
    exact ⟨a, b, c, rfl, by simpa [and_assoc] using hnodup⟩
  · rintro ⟨a, b, c, rfl, hab, hac, hbc⟩
    exact ⟨rfl, by simp [hab, hac, hbc]⟩

/-- Settles O9: a configuration is built exactly when `RawParams.ok` holds, whose clause on the number of geometries
says that they are three distinct pairs. -/
theorem brokenConfigurationIsNotBuilt : Obligations.BrokenConfigurationIsNotBuilt := by
  refine ⟨fun r => ?_, fun r P => build_eq_some_iff.mp⟩
  rw [build_isSome_iff, ← length_three_nodup_iff]
  simp only [RawParams.ok, gt_iff_lt, ge_iff_le, and_assoc]

/-! ## The size of the framebuffer -/

/-- Every configuration has a geometry. -/
theorem geoms_ne_nil (P : Params) : P.raw.geoms ≠ [] := by
  obtain ⟨-, -, -, hlen, -⟩ := P.ok
  exact List.ne_nil_of_length_eq_add_one hlen

/-- The maximum of a measure over a list bounds the measure of each member. -/
theorem le_foldr_max_map {α : Type} (f : α → Nat) {l : List α} {a : α} (h : a ∈ l) : f a ≤ (l.map f).foldr max 0 :=
  List.le_max_of_le' 0 (List.mem_map_of_mem h) le_rfl

/-- The maximum of a measure over a list that is not empty is the measure of some member. -/
theorem exists_eq_foldr_max_map {α : Type} (f : α → Nat) {l : List α} (h : l ≠ []) :
    ∃ a ∈ l, f a = (l.map f).foldr max 0 := by
  have hne : l.map f ≠ [] := mt List.map_eq_nil_iff.mp h
  have hmem : (l.map f).foldr max 0 ∈ l.map f := List.maximum_mem (List.foldr_max_of_ne_nil hne).symm
  exact List.mem_map.mp hmem

/-- Settles O11: `MAX_W` and `MAX_H` are maxima of a list that is not empty, so each is a bound that is reached. -/
theorem framebufferSizeIsTheMaximumGeometrys : Obligations.FramebufferSizeIsTheMaximumGeometrys := by
  intro P
  have hne := geoms_ne_nil P
  exact ⟨fun g hg => ⟨le_foldr_max_map Geometry.w hg, le_foldr_max_map Geometry.h hg⟩,
    exists_eq_foldr_max_map Geometry.w hne, exists_eq_foldr_max_map Geometry.h hne, rfl⟩

end Sys2Proof.Proofs
end

section
/-! PROOFS. What an accepted command and a step can do, each inverted once, and what follows of the parameters, the phase
and the response (10_state.md R20, R22, R26). -/

namespace Sys2Proof.Proofs

open Sys2Proof.Machine Sys2Proof.Laws

/-! ## The two inversions -/

/-- Whatever a command does, it ends by owing bytes and a response, over a state with the parameters and the edges to come
of the state before. -/
theorem exec_finishes {i : Instr} {s t : State} (h : exec i s = .next t) :
    ∃ bytes st ch u, t = finish bytes st ch u ∧ u.params = s.params ∧ u.inputs = s.inputs := by
  rcases exec_cases h with ⟨_, _, -, -, rfl⟩ | ⟨_, -, rfl⟩ | ⟨_, _, -, rfl⟩ | ⟨_, _, -, -, rfl⟩ |
    ⟨_, _, _, -, -, -, -, -, rfl⟩ | ⟨_, -, -, rfl⟩ <;>
  exact ⟨_, _, _, _, rfl, rfl, rfl⟩

/-- An accepted word that is answered: a command that ran, or ILLEGAL. -/
theorem acceptCommand_eq_next {cmd data : Word} {s t : State} (h : acceptCommand cmd data s = .next t) :
    (∃ i, decode cmd data = .ok i ∧ exec i s = .next t) ∨ t = raise .illegal s := by
  rcases acceptCommand_cases cmd data s with ⟨i, hi, e⟩ | ⟨_, -, e⟩
  · exact .inl ⟨i, hi, e ▸ h⟩
  · exact .inr (Host.Outcome.next.inj (h.symm.trans e))

theorem acceptCommand_finishes {cmd data : Word} {s t : State} (h : acceptCommand cmd data s = .next t) :
    ∃ bytes st ch u, t = finish bytes st ch u ∧ u.params = s.params ∧ u.inputs = s.inputs := by
  rcases acceptCommand_eq_next h with ⟨i, -, h⟩ | rfl
  · exact exec_finishes h
  · exact ⟨_, _, _, _, rfl, rfl, rfl⟩

/-- A step is the edge of some input ports with the rest left to come: the first on the list, or idle ports. -/
theorem step_eq_clockEdge (s : State) :
    ∃ p rest, (s.inputs = p :: rest ∨ p = Pins.idle) ∧ step s = clockEdge p { s with inputs := rest } := by
  rcases step_eq s with ⟨p, rest, hs, e⟩ | ⟨-, e⟩
  · exact ⟨p, rest, .inl hs, e⟩
  · exact ⟨Pins.idle, s.inputs, .inr rfl, e⟩

/-- What a step that is answered did: a reset edge, an accepted command of a ready block, a transfer of a busy one, or
nothing but the use of the edge's inputs. -/
theorem step_eq_next {s t : State} (h : step s = .next t) :
    ∃ p rest,
      (s.inputs = p :: rest ∧ p.rst = true ∧ t = resetEdge { s with inputs := rest }) ∨
      (s.inputs = p :: rest ∧ p.rst = false ∧ s.busy = false ∧ p.cmdValid = true ∧
        acceptCommand p.cmd p.cmdData { s with inputs := rest } = .next t) ∨
      (s.busy = true ∧ t = transfer p { s with inputs := rest }) ∨
      t = { s with inputs := rest } := by
  obtain ⟨p, rest, hp, e⟩ := step_eq_clockEdge s
  rw [e] at h
  have taken : p ≠ Pins.idle → s.inputs = p :: rest := hp.resolve_right
  refine ⟨p, rest, ?_⟩
  rcases clockEdge_cases p { s with inputs := rest } with ⟨hr, e⟩ | ⟨hr, hb, hv, e⟩ | ⟨-, -, -, e⟩ | ⟨-, hb, e⟩ <;>
    rw [e] at h
  · exact .inl ⟨taken (fun hi => by simp [hi, Pins.idle] at hr), hr, (Host.Outcome.next.inj h).symm⟩
  · exact .inr (.inl ⟨taken (fun hi => by simp [hi, Pins.idle] at hv), hr, hb, hv, h⟩)
  · exact .inr (.inr (.inr (Host.Outcome.next.inj h).symm))
  · exact .inr (.inr (.inl ⟨hb, (Host.Outcome.next.inj h).symm⟩))

/-! ## The parameters -/

theorem transfer_params (p : Pins) (s : State) : (transfer p s).params = s.params := by
  rcases transfer_cases p s with ⟨_, _, -, -, e⟩ | ⟨_, -, -, -, e⟩ | e <;> rw [e] <;> rfl

/-- Settles O10: of the four things a step can do none writes the parameters. -/
theorem parametersAreFixed : Obligations.ParametersAreFixed := by
  intro s t h
  obtain ⟨p, rest, ⟨-, -, rfl⟩ | ⟨-, -, -, -, h⟩ | ⟨-, rfl⟩ | rfl⟩ := step_eq_next h
  · rfl
  · obtain ⟨_, _, _, u, rfl, hu, -⟩ := acceptCommand_finishes h
    exact hu
  · exact transfer_params p _
  · rfl

/-! ## The phase and the response -/

/-- A command either is an FSM_CHECK that makes a transition and says so, or leaves the phase alone and answers
`changed = 0`. -/
theorem exec_phase_cases {i : Instr} {s t : State} (h : exec i s = .next t) :
    (∃ temp, i = .fsmCheck temp ∧ nextPhase s.params s.phase temp = some t.phase ∧
      t.pendingResponse = some ⟨.ok, true, t.phase⟩) ∨
    ((∀ temp q, i = .fsmCheck temp → nextPhase s.params s.phase temp ≠ some q) ∧ t.phase = s.phase ∧
      ∃ st, t.pendingResponse = some ⟨st, false, t.phase⟩) := by
  rcases exec_cases h with ⟨temp, q, rfl, hq, rfl⟩ | ⟨_, hop, rfl⟩ | ⟨_, _, hn, rfl⟩ | ⟨_, _, rfl, -, rfl⟩ |
    ⟨_, _, _, rfl, -, -, -, -, rfl⟩ | ⟨_, -, hn, rfl⟩
  · exact .inl ⟨temp, rfl, hq, rfl⟩
  · exact .inr ⟨fun _ _ hi => by simp [hi, Instr.opcode] at hop, rfl, _, rfl⟩
  · exact .inr ⟨hn, rfl, _, rfl⟩
  · exact .inr ⟨nofun, rfl, _, rfl⟩
  · exact .inr ⟨nofun, rfl, _, rfl⟩
  · exact .inr ⟨fun temp _ hi => absurd hi (hn temp), rfl, _, rfl⟩

/-- Settles O51, by the two kinds of command: an FSM_CHECK with a transition, and every other. -/
theorem responseChangedAndPhase : Obligations.ResponseChangedAndPhase := by
  intro i s t h
  rcases exec_phase_cases h with ⟨temp, rfl, hq, hr⟩ | ⟨hn, hp, st, hr⟩
  · exact ⟨_, hr, rfl, ⟨fun _ => ⟨temp, rfl, hq⟩, fun _ => rfl⟩, fun hi => absurd rfl (hi temp)⟩
  · exact ⟨_, hr, rfl, ⟨nofun, fun ⟨temp, hi, hq⟩ => absurd hq (hn temp _ hi)⟩, fun _ => hp⟩

theorem transfer_phase (p : Pins) (s : State) : (transfer p s).phase = s.phase := by
  rcases transfer_cases p s with ⟨_, _, -, -, e⟩ | ⟨_, -, -, -, e⟩ | e <;> rw [e] <;> rfl

/-- Settles O24: transfers, idle edges and refusals keep the phase, so the edge is a reset edge or accepts an FSM_CHECK
with a transition. -/
theorem onlyFsmCheckAndResetMoveThePhase : Obligations.OnlyFsmCheckAndResetMoveThePhase := by
  intro s t h hne
  obtain ⟨p, rest, ⟨hs, hr, rfl⟩ | ⟨hs, hr, hb, hv, h⟩ | ⟨-, rfl⟩ | rfl⟩ := step_eq_next h
  · exact ⟨p, rest, hs, .inl ⟨hr, rfl⟩⟩
  · rcases acceptCommand_eq_next h with ⟨i, hi, h⟩ | rfl
    · rcases exec_phase_cases h with ⟨temp, rfl, hq, -⟩ | ⟨-, hp, -⟩
      · exact ⟨p, rest, hs, .inr ⟨hr, hv, hb, temp, hi, hq⟩⟩
      · exact absurd hp hne
    · exact absurd rfl hne
  · exact absurd (transfer_phase p _) hne
  · exact absurd rfl hne

end Sys2Proof.Proofs
end

section
/-! PROOFS. Every step keeps the legal states: commands from the state of the framebuffer alone, the later edges of a command
from what the command left in progress (10_state.md R24 to R30, 20_memory.md R46, 60_exceptions.md R131, R143). -/

namespace Sys2Proof.Proofs

open Sys2Proof.Machine Sys2Proof.Laws

/-! ## The framebuffer -/

/-- The part of `State.Legal` that speaks of the framebuffer and its geometry; commands start from no more than it. -/
structure FbLegal (s : State) : Prop where
  fbForm : Memory.wf s.params.raw.fbTag (fbBytes s.params) s.fb = true
  tagByte : s.fbRead 0 = s.params.raw.fbTag
  geometry : s.cfgValid = true → (⟨s.cfgW.toNat, s.cfgH.toNat⟩ : Geometry) ∈ s.params.raw.geoms
  unconfigured : s.cfgValid = false → s.cfgW = 0#8 ∧ s.cfgH = 0#8
  beyond : ∀ a, s.pixelBytes < a → s.fbRead a = 0x00#8

theorem fbLegal_of_legal {s : State} (h : s.Legal) : FbLegal s := { h with }

/-- A geometry of `P_GEOMS` fits the two configuration registers whole (00_scope.md R5). -/
theorem geometry_toNat {P : Params} {w g : Nat} (h : (⟨w, g⟩ : Geometry) ∈ P.raw.geoms) :
    (BitVec.ofNat 8 w).toNat = w ∧ (BitVec.ofNat 8 g).toNat = g := by
  obtain ⟨-, -, -, -, -, hsides, -⟩ := P.ok
  obtain ⟨-, hw, -, hg⟩ := hsides _ h
  exact ⟨Nat.mod_eq_of_lt (Nat.lt_succ_of_le hw), Nat.mod_eq_of_lt (Nat.lt_succ_of_le hg)⟩

/-- An accepted geometry starts with every pixel byte zero, so nothing past its pages is set. -/
theorem fbLegal_configure {s : State} (h : FbLegal s) {w g : Nat} (hg : (⟨w, g⟩ : Geometry) ∈ s.params.raw.geoms) :
    FbLegal (s.setGeometry w g).fbClearPixels where
  fbForm := wf_clearPixels h.fbForm
  tagByte := (read_clearPixels _ _ 0).trans h.tagByte
  geometry _ := by
    obtain ⟨hw, hh⟩ := geometry_toNat hg
    simpa [hw, hh] using hg
  unconfigured := nofun
  beyond a ha := (read_clearPixels _ _ a).trans (if_neg (by omega))

/-- An in-bounds pixel has its byte past the tag and within the pages of the geometry (20_memory.md R44, R46). -/
theorem pixelIndex_mem_pixelBytes {s : State} {x y : Nat} (hx : x < s.cfgW.toNat) (hy : y < s.cfgH.toNat) :
    1 ≤ pixelIndex s.cfgW x y ∧ pixelIndex s.cfgW x y ≤ s.pixelBytes := by
  have hpage : y / 8 + 1 ≤ pagesOf s.cfgH.toNat := by unfold pagesOf; omega
  have hmul := Nat.mul_le_mul_right s.cfgW.toNat hpage
  rw [Nat.add_mul] at hmul
  unfold pixelIndex State.pixelBytes
  rw [Nat.mul_comm s.cfgW.toNat]
  omega

/-- Changing a byte between the tag and the end of the pages keeps the framebuffer legal. -/
theorem fbLegal_write {s : State} (h : FbLegal s) {a : Nat} (v : Byte) (ha : 1 ≤ a) (hpix : a ≤ s.pixelBytes)
    (hsize : a < fbBytes s.params) : FbLegal { s with fb := Memory.write s.params.raw.fbTag s.fb a v } where
  fbForm := wf_write h.fbForm hsize
  tagByte := (read_write_other (by omega)).trans h.tagByte
  geometry := h.geometry
  unconfigured := h.unconfigured
  beyond c hc := by
    have hc : s.pixelBytes < c := hc
    exact (read_write_other (by omega)).trans (h.beyond c hc)

/-! ## The command in progress -/

/-- A command that answers OK with one payload, or none, ends legal. -/
theorem legal_finish_ok {s : State} (h : FbLegal s) (c : Chan) (bytes : List Byte) (ch : Bool) :
    (finish (tagBytes c bytes) .ok ch s).Legal :=
  { h with
    busyResponse := rfl
    idleQuiet := nofun
    responsePhase := by rintro _ ⟨⟩; rfl
    failedQuiet := by rintro _ ⟨⟩ hst; exact absurd rfl hst
    lastFlags := tagBytes_lastFlags c bytes
    oneChannel := fun _ hb _ hb' => (tagBytes_chan hb).trans (tagBytes_chan hb').symm
    recorded := by rintro _ ⟨⟩ hst; exact absurd hst Bool.false_ne_true }

/-- A programming error of the host is on record once it is recorded (60_exceptions.md R143). -/
theorem recordFault_ne_none {st : Status} (h : st.isHostError = true) (rec : Option Status) :
    recordFault st rec ≠ none := by
  cases rec <;> simp [recordFault, h]

/-- A command turned away ends legal: silent, unchanged and on record. -/
theorem legal_raise {s : State} (h : FbLegal s) (st : Status) : (raise st s).Legal :=
  { h with
    busyResponse := rfl
    idleQuiet := nofun
    responsePhase := by rintro _ ⟨⟩; rfl
    failedQuiet := by rintro _ ⟨⟩ _; exact ⟨rfl, rfl⟩
    lastFlags := rfl
    oneChannel := nofun
    recorded := by rintro _ ⟨⟩ hst; exact recordFault_ne_none hst _ }

/-- A command ends legal from every state with a legal framebuffer, whatever it finds in progress. -/
theorem legal_exec {i : Instr} {s t : State} (hs : FbLegal s) (h : exec i s = .next t) : t.Legal := by
  rcases exec_cases h with ⟨_, q, -, -, rfl⟩ | ⟨a, -, rfl⟩ | ⟨c, bytes, -, rfl⟩ | ⟨w, g, -, hg, rfl⟩ |
    ⟨x, y, c, -, -, hx, hy, hsize, rfl⟩ | ⟨st, -, -, rfl⟩
  · exact legal_finish_ok (s := s.setPhase q) { hs with } .alnum [] true
  · exact legal_finish_ok (s := { s with an := a }) { hs with } .alnum [] false
  · exact legal_finish_ok hs c bytes false
  · exact legal_finish_ok (fbLegal_configure hs hg) .framebuffer [] false
  · obtain ⟨hpos, hpix⟩ := pixelIndex_mem_pixelBytes hx hy
    exact legal_finish_ok (fbLegal_write hs _ hpos hpix hsize) .framebuffer [] false
  · exact legal_raise hs st

theorem legal_acceptCommand {cmd data : Word} {s t : State} (hs : FbLegal s)
    (h : acceptCommand cmd data s = .next t) : t.Legal := by
  rcases acceptCommand_eq_next h with ⟨i, -, h⟩ | rfl
  · exact legal_exec hs h
  · exact legal_raise hs .illegal

/-! ## The other edges -/

/-- The reset state of every configuration is legal: no geometry, nothing in progress, no byte changed. -/
theorem legal_resetWith (P : Params) : (State.resetWith P).Legal where
  fbForm := rfl
  tagByte := rfl
  geometry := nofun
  unconfigured _ := ⟨rfl, rfl⟩
  beyond _ ha := fbUnlisted_pixel _ (Nat.one_le_of_lt ha)
  busyResponse := rfl
  idleQuiet _ := rfl
  responsePhase := nofun
  failedQuiet := nofun
  lastFlags := rfl
  oneChannel := nofun
  recorded := nofun

/-- A reset edge ends legal from every state: what it keeps, `State.Legal` does not ask about once nothing is owed. -/
theorem legal_resetEdge (s : State) : (resetEdge s).Legal := { legal_resetWith s.params with recorded := nofun }

/-- A byte on offer belongs to a command that answered OK, and what is left of its payload is still well tagged. -/
theorem legal_takeByte {s : State} (h : s.Legal) {b : StreamByte} {rest : List StreamByte}
    (hb : s.pendingBytes = b :: rest) : (takeByte b rest s).Legal :=
  { h with
    idleQuiet := fun hbusy => by simp [h.idleQuiet hbusy] at hb
    failedQuiet := fun r hr hst => by simp [(h.failedQuiet r hr hst).1] at hb
    lastFlags := lastFlagsOk_tail (hb ▸ h.lastFlags)
    oneChannel := fun c hc d hd => h.oneChannel c (by rw [hb]; exact .tail _ hc) d (by rw [hb]; exact .tail _ hd) }

/-- The response is taken after the last byte, so the block is ready with nothing left over. -/
theorem legal_takeResponse {s : State} (h : s.Legal) (r : Response) (hb : s.pendingBytes = []) :
    (takeResponse r s).Legal :=
  { h with
    busyResponse := rfl
    idleQuiet := fun _ => hb
    responsePhase := nofun
    failedQuiet := nofun
    recorded := nofun }

theorem legal_transfer {s : State} (h : s.Legal) (p : Pins) : (transfer p s).Legal := by
  rcases transfer_cases p s with ⟨b, rest, hb, -, e⟩ | ⟨r, hb, -, -, e⟩ | e <;> rw [e]
  · exact legal_takeByte h hb
  · exact legal_takeResponse h r hb
  · exact h

/-- Settles O15: each of the four things a step can do ends legal; the edges still to come are nothing `State.Legal`
asks about. -/
theorem stepKeepsLegal : Obligations.StepKeepsLegal := by
  intro s t hs h
  obtain ⟨p, rest, hstep⟩ := step_eq_next h
  have hs' : { s with inputs := rest }.Legal := { hs with }
  obtain ⟨-, -, rfl⟩ | ⟨-, -, -, -, h⟩ | ⟨-, rfl⟩ | rfl := hstep
  · exact legal_resetEdge _
  · exact legal_acceptCommand (fbLegal_of_legal hs') h
  · exact legal_transfer hs' p
  · exact hs'

end Sys2Proof.Proofs
end

section
/-! PROOFS. The handshake and the ports: one edge at a time, and a whole command from its offer to its response
(10_state.md R25 to R33, 70_reset_and_hazards.md R155, R156). -/

namespace Sys2Proof.Proofs

open Sys2Proof.Machine Sys2Proof.Laws

/-! ## One edge -/

theorem clockEdge_reset {p : Pins} (hr : p.rst = true) (s : State) : clockEdge p s = .next (resetEdge s) := if_pos hr

theorem clockEdge_ready {p : Pins} {s : State} (hb : s.busy = false) (hr : p.rst = false) :
    clockEdge p s = if p.cmdValid then acceptCommand p.cmd p.cmdData s else .next s := by
  simp [clockEdge, State.cmdReady, hb, hr]

theorem clockEdge_busy {p : Pins} {s : State} (hb : s.busy = true) (hr : p.rst = false) :
    clockEdge p s = .next (transfer p s) := by
  simp [clockEdge, State.cmdReady, hb, hr]

theorem acceptCommand_of_decode {cmd data : Word} {i : Instr} (h : decode cmd data = .ok i) (s : State) :
    acceptCommand cmd data s = exec i s := by
  simp only [acceptCommand, h]

/-- A step is the edge of the first of the input ports to come. -/
theorem step_of_inputs {s : State} {p : Pins} {rest : List Pins} (h : s.inputs = p :: rest) :
    step s = clockEdge p { s with inputs := rest } := by
  simp only [step, nextEdge, h]

/-- At an edge without reset a ready block accepts the command on offer. -/
theorem step_accepts {s : State} {p : Pins} {rest : List Pins} (hs : s.inputs = p :: rest) (hb : s.busy = false)
    (hr : p.rst = false) (hv : p.cmdValid = true) :
    step s = acceptCommand p.cmd p.cmdData { s with inputs := rest } := by
  have hready : { s with inputs := rest }.busy = false := hb
  rw [step_of_inputs hs, clockEdge_ready hready hr, if_pos hv]

/-- A busy block looks at `out_ready` and `rsp_ready` only. -/
theorem transfer_congr {p q : Pins} (ho : p.outReady = q.outReady) (hr : p.rspReady = q.rspReady) (s : State) :
    transfer p s = transfer q s := by
  simp only [transfer, ho, hr]

theorem transfer_byte {s : State} {b : StreamByte} {rest : List StreamByte} (hb : s.pendingBytes = b :: rest) (p : Pins) :
    transfer p s = if p.outReady then takeByte b rest s else s := by
  simp only [transfer, hb]

theorem transfer_response {s : State} {r : Response} (hb : s.pendingBytes = []) (hr : s.pendingResponse = some r)
    (p : Pins) : transfer p s = if p.rspReady then takeResponse r s else s := by
  simp only [transfer, hb, hr]

/-- Settles O53: a ready block runs what the offered words decode to. -/
theorem stepRunsTheDecodedCommand : Obligations.StepRunsTheDecodedCommand := by
  intro s p rest i hs hr hv hb hi
  rw [step_accepts hs hb hr hv, acceptCommand_of_decode hi]

/-- The instruction read from a table word is the one its two command words decode to (log 8). -/
theorem decode_of_decodeTableWord {nbits w : Nat} {i : Instr} (h : decodeTableWord nbits w = some i) :
    decode (tableWords nbits w).1 (tableWords nbits w).2 = .ok i := by
  unfold decodeTableWord at h
  split at h
  next hi => exact hi.trans (congrArg _ (Option.some.inj h))
  next => exact nomatch h

/-- Settles O54: presenting a table word is one offer at the next edge of a ready block. -/
theorem presentedWordRunsNext : Obligations.PresentedWordRunsNext := by
  intro s nbits w i h
  exact stepRunsTheDecodedCommand (s.withFetchWord nbits w) _ _ i (present_inputs _ _ _) rfl rfl (present_busy _ _ _)
    (decode_of_decodeTableWord h)

/-- Settles O55: a reset edge reads no port but `rst`, and an edge of a busy block without reset only transfers. -/
theorem onlyAReadyBlockAcceptsAnOffer : Obligations.OnlyAReadyBlockAcceptsAnOffer := by
  refine ⟨fun s p q hb hrst ho hr => ?_, fun s p hb hrst hv => ?_⟩
  · cases hp : p.rst with
    | true => rw [clockEdge_reset hp, clockEdge_reset (hrst ▸ hp)]
    | false => rw [clockEdge_busy hb hp, clockEdge_busy hb (hrst ▸ hp), transfer_congr ho hr]
  · rw [clockEdge_ready hb hrst, hv, if_neg Bool.false_ne_true]

/-! ## What is on offer -/

theorem outOffer_cons {s : State} {b : StreamByte} {rest : List StreamByte} (hb : s.busy = true)
    (h : s.pendingBytes = b :: rest) : s.outOffer = some b := by
  simp [State.outOffer, hb, h]

theorem outOffer_nil {s : State} (h : s.pendingBytes = []) : s.outOffer = none := by
  simp [State.outOffer, h]

theorem rspOffer_cons {s : State} {b : StreamByte} {rest : List StreamByte} (h : s.pendingBytes = b :: rest) :
    s.rspOffer = none := by
  simp [State.rspOffer, h]

theorem rspOffer_nil {s : State} (hb : s.busy = true) (h : s.pendingBytes = []) : s.rspOffer = s.pendingResponse := by
  simp [State.rspOffer, hb, h]

theorem offers_ready {s : State} (hb : s.busy = false) : s.outOffer = none ∧ s.rspOffer = none := by
  simp [State.outOffer, State.rspOffer, hb]

/-- Settles O56, by whether a stream byte is left. -/
theorem bytesThenResponse : Obligations.BytesThenResponse := by
  refine ⟨fun s => ?_, fun s p b rest hb hr h => ?_, fun s p r hb hr h hresp => ?_⟩
  · cases h : s.pendingBytes with
    | nil => simp [State.outValid, outOffer_nil h]
    | cons b rest => simp [State.rspValid, rspOffer_cons h]
  · rw [clockEdge_busy hb hr, transfer_byte h]
    exact ⟨outOffer_cons hb h, fun ho => by rw [if_pos ho]; rfl, fun ho => by rw [ho, if_neg Bool.false_ne_true]⟩
  · rw [clockEdge_busy hb hr, transfer_response h hresp]
    exact ⟨(rspOffer_nil hb h).trans hresp, fun ho => by rw [if_pos ho]; rfl,
      fun ho => by rw [ho, if_neg Bool.false_ne_true]⟩

/-- FSM_CHECK owes its response and no byte. -/
theorem exec_fsmCheck_finishes {temp : Int} {s t : State} (h : exec (.fsmCheck temp) s = .next t) :
    ∃ ch u, t = finish [] .ok ch u := by
  simp only [exec, execFsmCheck, Host.Outcome.next.injEq] at h
  subst h
  cases nextPhase s.params s.phase temp with
  | some q => exact ⟨_, _, rfl⟩
  | none => exact ⟨_, _, rfl⟩

/-- Settles O60: the codes are the definitions' own; the ports follow from what is on offer with a byte left, with none
left, and in a ready block; and FSM_CHECK offers its response at once, with the phase after it. -/
theorem portsShowTheState : Obligations.PortsShowTheState := by
  refine ⟨fun s => ⟨rfl, rfl, rfl⟩, ⟨rfl, rfl, rfl, rfl⟩, ⟨rfl, rfl, rfl⟩, ⟨rfl, rfl, rfl, rfl, rfl⟩,
    fun s b rest hb h => ?_, fun s r hb h hresp => ?_, fun s hb => ?_, fun temp s t h => ?_⟩
  · simp [State.outPins, State.outValid, State.rspValid, outOffer_cons hb h, rspOffer_cons h]
  · simp [State.outPins, State.outValid, State.rspValid, outOffer_nil h, rspOffer_nil hb h, hresp]
  · simp [State.outPins, State.outValid, State.rspValid, offers_ready hb]
  · obtain ⟨ch, u, rfl⟩ := exec_fsmCheck_finishes h
    exact ⟨_, rfl, rfl, rfl⟩

/-! ## A whole command -/

/-- The edges to come are nothing an accepted word reads or changes. -/
theorem acceptCommand_inputs {cmd data : Word} {s t : State} (h : acceptCommand cmd data s = .next t) (q : List Pins) :
    acceptCommand cmd data { s with inputs := q } = .next { t with inputs := q } := by
  rcases acceptCommand_cases cmd data s with ⟨i, hi, e⟩ | ⟨_, hi, e⟩
  · rw [acceptCommand_of_decode hi, exec_inputs, ← e, h]
  · obtain rfl := Host.Outcome.next.inj (h.symm.trans e)
    simp only [acceptCommand, hi]
    rfl

/-- An edge of a busy block without reset is the transfer of its ports. -/
theorem step_transfers {s : State} {p : Pins} {rest : List Pins} (hs : s.inputs = p :: rest) (hb : s.busy = true)
    (hr : p.rst = false) : step s = .next (transfer p { s with inputs := rest }) := by
  have hbusy : { s with inputs := rest }.busy = true := hb
  rw [step_of_inputs hs, clockEdge_busy hbusy hr]

/-- A byte already taken is one of those a settled command has sent. -/
theorem settle_takeByte {s : State} {b : StreamByte} {bs : List StreamByte} (h : s.pendingBytes = b :: bs) :
    (takeByte b bs s).settle = s.settle := by
  simp [State.settle, takeByte, h]

/-- Taking the response after the last byte settles the command. -/
theorem takeResponse_eq_settle {s : State} {r : Response} (hb : s.pendingBytes = []) (hr : s.pendingResponse = some r) :
    takeResponse r s = s.settle := by
  simp [State.settle, takeResponse, hb, hr]

/-- Edges that bring the command in progress to its end, with any stalls, leave the block settled: each edge either
transfers what is on offer, which settling had counted in, or uses up its own inputs and nothing else. -/
theorem run_delivers {edges rest : List Pins} {s : State} {r : Response} (hs : s.inputs = edges ++ rest)
    (hb : s.busy = true) (hresp : s.pendingResponse = some r) (hd : delivers s.pendingBytes.length edges = true) :
    Host.Core.run core edges.length s = .next { s.settle with inputs := rest } := by
  induction edges generalizing s with
  | nil => simp at hd
  | cons p edges ih =>
    let u : State := { s with inputs := edges ++ rest }
    have hstep (hr : p.rst = false) :
        Host.Core.run core (p :: edges).length s = Host.Core.run core edges.length (transfer p u) :=
      run_succ_of_step _ (step_transfers hs hb hr)
    cases hbs : s.pendingBytes with
    | cons b bs =>
      have hbu : u.pendingBytes = b :: bs := hbs
      rw [hbs, List.length_cons, delivers_succ_cons, Bool.and_eq_true, Bool.not_eq_true'] at hd
      obtain ⟨hr, hd⟩ := hd
      rw [hstep hr, transfer_byte hbu]
      split at hd
      next ho =>
        rw [if_pos ho, ih (s := takeByte b bs u) rfl hb hresp hd, settle_takeByte hbu]
        rfl
      next ho =>
        rw [if_neg ho]
        exact ih (s := u) rfl hb hresp (hbu ▸ hd)
    | nil =>
      have hbu : u.pendingBytes = [] := hbs
      rw [hbs, List.length_nil, delivers_zero_cons, Bool.and_eq_true, Bool.not_eq_true'] at hd
      obtain ⟨hr, hd⟩ := hd
      rw [hstep hr, transfer_response hbu hresp]
      split at hd
      next ho =>
        obtain rfl := List.isEmpty_iff.mp hd
        rw [if_pos ho, takeResponse_eq_settle hbu hresp]
        exact run_zero _
      next ho =>
        rw [if_neg ho]
        exact ih (s := u) rfl hb hresp (hbu ▸ hd)

/-- Settles O58: the acceptance edge is the abstract step, which does not depend on the edges to come, and the edges after
it settle the command it leaves in progress. -/
theorem handshakeRefinesTheAbstractStep : Obligations.HandshakeRefinesTheAbstractStep := by
  intro p edges rest s t hb hr hv h hd
  have haccept : step { s with inputs := p :: (edges ++ rest) } = .next { t with inputs := edges ++ rest } :=
    (step_accepts (s := { s with inputs := p :: (edges ++ rest) }) rfl hb hr hv).trans
      (acceptCommand_inputs h (edges ++ rest))
  obtain ⟨bytes, st, ch, u, rfl, -, hu⟩ := acceptCommand_finishes h
  have hu : u.inputs = rest := hu
  subst hu
  rw [Nat.add_comm]
  exact (run_succ_of_step _ haccept).trans (run_delivers rfl rfl rfl hd)

end Sys2Proof.Proofs
end

section
/-! PROOFS. The memory: the byte view of `AN`, the canonical form of `FB`, the bit of each pixel, and what the two
serializations read and every other command leaves alone (20_memory.md R40 to R51). -/

namespace Sys2Proof.Proofs

open Sys2Proof.Machine Sys2Proof.Laws

/-! ## The byte view of AN -/

theorem anByte_even (an : AnBuffer) (p : Fin 8) : anByte an ⟨2 * p.val, by omega⟩ = an[p].extractLsb' 0 8 := by
  simp [anByte]

theorem anByte_odd (an : AnBuffer) (p : Fin 8) : anByte an ⟨2 * p.val + 1, by omega⟩ = an[p].extractLsb' 8 8 := by
  have hdiv : (2 * p.val + 1) / 2 = p.val := by omega
  simp [anByte, hdiv]

/-- Settles O32: the even and the odd byte of a word are its low and its high eight bits. -/
theorem anByteViewIsLittleEndian : Obligations.AnByteViewIsLittleEndian := by
  intro an p
  have hword : an[p].toNat < 2 ^ 16 := an[p].isLt
  simp only [anByte_even, anByte_odd, BitVec.extractLsb'_toNat, Nat.shiftRight_eq_div_pow]
  omega

/-! ## The canonical form of FB -/

/-- The canonical form from its first cell on: the cell is listed for a reason, and the rest lies above it. -/
theorem wf_cons_iff {tag u : Byte} {size b : Nat} {m : Memory} : Memory.wf tag size ((b, u) :: m) = true ↔
    b < size ∧ u ≠ fbUnlisted tag b ∧ (∀ p ∈ m, b < p.1) ∧ Memory.wf tag size m = true := by
  simp only [wf_iff, List.pairwise_cons, List.forall_mem_cons]
  tauto

/-- A cell at the head of one list shows in every list that reads alike: no such list lies above it. -/
theorem exists_cell_le_of_read_eq {tag u : Byte} {size b : Nat} {m n : Memory}
    (hm : Memory.wf tag size ((b, u) :: m) = true)
    (h : ∀ a, Memory.read tag ((b, u) :: m) a = Memory.read tag n a) : ∃ p ∈ n, p.1 ≤ b := by
  obtain ⟨-, hu, -, -⟩ := wf_cons_iff.mp hm
  by_contra hn
  push Not at hn
  have hread := h b
  rw [read_cons, if_pos rfl, read_of_below hn] at hread
  exact hu hread

/-- Of two lists that read alike, each begins no higher than the other. -/
theorem head_le_of_read_eq {tag u w : Byte} {size b c : Nat} {m n : Memory}
    (hm : Memory.wf tag size ((b, u) :: m) = true) (hn : Memory.wf tag size ((c, w) :: n) = true)
    (h : ∀ a, Memory.read tag ((b, u) :: m) a = Memory.read tag ((c, w) :: n) a) : c ≤ b := by
  obtain ⟨-, -, hcn, -⟩ := wf_cons_iff.mp hn
  obtain ⟨p, hp, hpb⟩ := exists_cell_le_of_read_eq hm h
  rcases List.mem_cons.mp hp with rfl | hp
  · exact hpb
  · exact (hcn p hp).le.trans hpb

theorem tail_read_eq {tag u : Byte} {b : Nat} {m n : Memory} (hm : ∀ p ∈ m, b < p.1) (hn : ∀ p ∈ n, b < p.1)
    (h : ∀ a, Memory.read tag ((b, u) :: m) a = Memory.read tag ((b, u) :: n) a) (a : Nat) :
    Memory.read tag m a = Memory.read tag n a := by
  by_cases ha : b = a
  · subst ha
    rw [read_of_below hm, read_of_below hn]
  · simpa [read_cons, ha] using h a

/-- Settles O36, by induction on the two lists: each begins no higher than the other, so they begin with the same cell,
and what is left of them reads alike. -/
theorem equalFramebuffersAreEqualData : Obligations.EqualFramebuffersAreEqualData := by
  intro tag size m
  induction m with
  | nil =>
    intro n _ hn h
    cases n with
    | nil => rfl
    | cons q n =>
      obtain ⟨p, hp, -⟩ := exists_cell_le_of_read_eq hn (fun a => (h a).symm)
      exact absurd hp List.not_mem_nil
  | cons p m ih =>
    intro n hm hn h
    obtain ⟨b, u⟩ := p
    cases n with
    | nil =>
      obtain ⟨p, hp, -⟩ := exists_cell_le_of_read_eq hm h
      exact absurd hp List.not_mem_nil
    | cons q n =>
      obtain ⟨c, w⟩ := q
      obtain ⟨-, -, hbm, hm'⟩ := wf_cons_iff.mp hm
      obtain ⟨-, -, hcn, hn'⟩ := wf_cons_iff.mp hn
      obtain rfl : b = c := le_antisymm (head_le_of_read_eq hn hm (fun a => (h a).symm)) (head_le_of_read_eq hm hn h)
      obtain rfl : u = w := by simpa [read_cons] using h b
      rw [ih n hm' hn' (tail_read_eq hbm hcn h)]

/-! ## The bit of each pixel -/

/-- The pages of an accepted geometry lie inside `FB`, after the tag byte (20_memory.md R46). -/
theorem pixelBytes_le_fbBytes {s : State} (h : (⟨s.cfgW.toNat, s.cfgH.toNat⟩ : Geometry) ∈ s.params.raw.geoms) :
    s.pixelBytes + 1 ≤ fbBytes s.params := by
  have hw : s.cfgW.toNat ≤ maxW s.params := le_foldr_max_map Geometry.w h
  have hh : s.cfgH.toNat ≤ maxH s.params := le_foldr_max_map Geometry.h h
  have hpages : pagesOf s.cfgH.toNat ≤ pagesOf (maxH s.params) := Nat.div_le_div_right (Nat.add_le_add_right hh 7)
  have hmul := Nat.mul_le_mul hpages hw
  unfold State.pixelBytes fbBytes
  rw [Nat.mul_comm s.cfgW.toNat]
  omega

/-- The byte of a pixel gives its column and its page: the column is the remainder by the width. -/
theorem pixelIndex_inj {w : Byte} {x y x' y' : Nat} (hx : x < w.toNat) (hx' : x' < w.toNat)
    (h : pixelIndex w x y = pixelIndex w x' y') : x = x' ∧ y / 8 = y' / 8 := by
  unfold pixelIndex at h
  have hsum : x + y / 8 * w.toNat = x' + y' / 8 * w.toNat := by omega
  have hcol := congrArg (· % w.toNat) hsum
  have hpage := congrArg (· / w.toNat) hsum
  have hw : 0 < w.toNat := Nat.zero_lt_of_lt hx
  simp only [Nat.add_mul_mod_self_right, Nat.mod_eq_of_lt hx, Nat.mod_eq_of_lt hx'] at hcol
  simp only [Nat.add_mul_div_right _ _ hw, Nat.div_eq_of_lt hx, Nat.div_eq_of_lt hx', Nat.zero_add] at hpage
  exact ⟨hcol, hpage⟩

/-- Settles O39: the byte gives the column and the page of a pixel, and the bit its row in the page. -/
theorem pixelsHaveTheirOwnBits : Obligations.PixelsHaveTheirOwnBits := by
  intro s hs hv x y x' y' hx hy hx' hy'
  obtain ⟨hpos, hpix⟩ := pixelIndex_mem_pixelBytes hx hy
  have hsize := pixelBytes_le_fbBytes (hs.geometry hv)
  refine ⟨⟨rfl, rfl⟩, ⟨hpos, hpix, Nat.le_sub_one_of_lt hsize, Nat.lt_of_le_of_lt hpix hsize⟩, fun hi hb => ?_⟩
  obtain ⟨hcol, hpage⟩ := pixelIndex_inj hx hx' hi
  have hrow : y % 8 = y' % 8 := hb
  exact ⟨hcol, by omega⟩

/-! ## The serializations -/

theorem exec_anSerialize (s : State) :
    exec .anSerialize s = .next (finish (tagBytes .alnum (anPayload s.an)) .ok false s) := rfl

theorem exec_fbSerialize_configured {s : State} (h : s.cfgValid = true) :
    exec .fbSerialize s =
      .next (finish (tagBytes .framebuffer (s.fbReadBytes 0 (fbBytes s.params))) .ok false s) := by
  simp [exec, execFbSerialize, h]

theorem exec_fbSerialize_unconfigured {s : State} (h : s.cfgValid = false) :
    exec .fbSerialize s = .next (raise .notConfigured s) := by
  simp [exec, execFbSerialize, h]

/-- FB_SERIALIZE emits the whole buffer, or is turned away before a geometry is accepted. -/
theorem fbSerialize_eq_next {s t : State} (h : exec .fbSerialize s = .next t) :
    (s.cfgValid = true ∧
      t = finish (tagBytes .framebuffer (s.fbReadBytes 0 (fbBytes s.params))) .ok false s) ∨
    (s.cfgValid = false ∧ t = raise .notConfigured s) := by
  cases hv : s.cfgValid with
  | true => exact .inl ⟨rfl, Host.Outcome.next.inj (h.symm.trans (exec_fbSerialize_configured hv))⟩
  | false => exact .inr ⟨rfl, Host.Outcome.next.inj (h.symm.trans (exec_fbSerialize_unconfigured hv))⟩

theorem sameBlock_finish (bs : List StreamByte) (st : Status) (c : Bool) (s : State) : s.SameBlock (finish bs st c s) :=
  ⟨rfl, rfl, rfl, rfl, rfl, rfl, rfl⟩

theorem sameBlock_raise (st : Status) (s : State) : s.SameBlock (raise st s) := ⟨rfl, rfl, rfl, rfl, rfl, rfl, rfl⟩

theorem fbReadBytes_congr {s s' : State} (h : s.SameFramebuffer s') (a n : Nat) :
    s'.fbReadBytes a n = s.fbReadBytes a n :=
  List.map_congr_left fun k _ => by rw [fbRead_eq, fbRead_eq, h.params, h.fb]

/-- What FB_SERIALIZE emits is read from the framebuffer, the geometry and the parameters alone. -/
theorem fbSerialize_bytes_congr {s s' t : State} (hsame : s.SameFramebuffer s') (h : exec .fbSerialize s = .next t) :
    ∃ t' : State, exec .fbSerialize s' = .next t' ∧ t'.pendingBytes = t.pendingBytes := by
  rcases fbSerialize_eq_next h with ⟨hv, rfl⟩ | ⟨hv, rfl⟩
  · refine ⟨_, exec_fbSerialize_configured (hsame.cfgValid.trans hv), ?_⟩
    simp only [finish_pendingBytes, hsame.params, fbReadBytes_congr hsame]
  · exact ⟨_, exec_fbSerialize_unconfigured (hsame.cfgValid.trans hv), rfl⟩

/-! ## What the other commands leave alone -/

/-- Only the four commands that write `AN` change it (10_state.md R23). -/
theorem exec_keeps_an {i : Instr} {s t : State} (h : exec i s = .next t)
    (hop : i.opcode ∉ [Opcode.anClear, .anWriteDigit, .anWriteAscii, .anFormatTemp]) : t.an = s.an := by
  rcases exec_cases h with ⟨_, _, -, -, rfl⟩ | ⟨_, hwrites, -⟩ | ⟨_, _, -, rfl⟩ | ⟨_, _, -, -, rfl⟩ |
    ⟨_, _, _, -, -, -, -, -, rfl⟩ | ⟨_, -, -, rfl⟩
  · rfl
  · exact absurd hwrites hop
  all_goals rfl

/-- Only FB_CONFIGURE and FB_SET_PIXEL change the framebuffer or the geometry (10_state.md R24, R25). -/
theorem exec_keeps_framebuffer {i : Instr} {s t : State} (h : exec i s = .next t)
    (hop : i.opcode ∉ [Opcode.fbConfigure, .fbSetPixel]) : s.SameFramebuffer t := by
  rcases exec_cases h with ⟨_, _, -, -, rfl⟩ | ⟨_, -, rfl⟩ | ⟨_, _, -, rfl⟩ | ⟨_, _, rfl, -, -⟩ |
    ⟨_, _, _, rfl, -, -, -, -, -⟩ | ⟨_, -, -, rfl⟩
  case inr.inr.inr.inl => exact absurd (.head _) hop
  case inr.inr.inr.inr.inl => exact absurd (.tail _ (.head _)) hop
  all_goals exact ⟨rfl, rfl, rfl, rfl, rfl⟩

/-- Settles O45: a serialization ends the command over the state it found, with bytes read from its buffer alone, and the
other two clauses are the frames of the buffers. -/
theorem serializationsAreRepeatable : Obligations.SerializationsAreRepeatable := by
  refine ⟨fun i hi s t h => ?_, fun s s' t han h => ?_, fun _ _ _ => fbSerialize_bytes_congr,
    fun _ _ _ => exec_keeps_an, fun _ _ _ => exec_keeps_framebuffer⟩
  · rcases List.mem_pair.mp hi with rfl | rfl
    · obtain rfl := Host.Outcome.next.inj h
      exact sameBlock_finish _ _ _ s
    · rcases fbSerialize_eq_next h with ⟨-, rfl⟩ | ⟨-, rfl⟩
      · exact sameBlock_finish _ _ _ s
      · exact sameBlock_raise _ s
  · obtain rfl := Host.Outcome.next.inj ((exec_anSerialize s).symm.trans h)
    exact ⟨_, exec_anSerialize s', by simp only [finish_pendingBytes, han]⟩

end Sys2Proof.Proofs
end

section
/-! PROOFS. The command words: what the decoder answers for every word, and with it the round trips, the rejections, the
named fields and the illegal words (30_encoding.md R61 to R79, 60_exceptions.md R131, R133). -/

namespace Sys2Proof.Proofs

open Sys2Proof.Machine Sys2Proof.Laws

/-! ## The two steps of the decoder -/

/-- The second step of the decoder: the command of an opcode, its operands read from the fields of a word with no
reserved bit set (30_encoding.md R63 to R68). -/
def decodeFields (op : Opcode) (cmd data : Word) : Except DecodeError Instr :=
  match op with
  | .fsmCheck => .ok (.fsmCheck (tempOf data))
  | .anClear => .ok .anClear
  | .anWriteDigit => .ok (.anWriteDigit (posOf cmd) (dpOf cmd) (valOf cmd))
  | .anWriteAscii => .ok (.anWriteAscii (posOf cmd) (dpOf cmd) (valOf cmd))
  | .anFormatTemp => .ok (.anFormatTemp (tempOf data))
  | .anSerialize => .ok .anSerialize
  | .anCmdBlink => .ok (.anCmdBlink (valOf cmd))
  | .anCmdBrightness => .ok (.anCmdBrightness (valOf cmd))
  | .fbConfigure => .ok (.fbConfigure (xOf cmd) (yOf cmd))
  | .fbSetPixel =>
    match Color.ofCode (colorOf cmd) with
    | none => .error .reservedColor
    | some c => .ok (.fbSetPixel (xOf cmd) (yOf cmd) c)
  | .fbSerialize => .ok .fbSerialize

variable {cmd : Word} {op : Opcode}

/-- A word with a legal opcode and no reserved bit set is decided by its fields. -/
theorem decode_of_clear (ho : opcOf cmd = op.code) (hm : cmd &&& reservedMask op.format = 0#32) (data : Word) :
    decode cmd data = decodeFields op cmd data := by
  simp only [decode, ho, ofCode_code, hm, ne_eq, not_true_eq_false, if_false]
  cases op <;> rfl

theorem decode_of_ofCode_none (h : Opcode.ofCode (opcOf cmd) = none) (data : Word) :
    decode cmd data = .error .reservedOpcode := by
  simp only [decode, h]

/-- What the decoder does with a word, whatever `cmd_data` is (30_encoding.md R70). -/
theorem decode_cases (cmd : Word) :
    (Opcode.ofCode (opcOf cmd) = none ∧ ∀ data, decode cmd data = .error .reservedOpcode) ∨
    ∃ op, opcOf cmd = op.code ∧
      ((cmd &&& reservedMask op.format ≠ 0#32 ∧ ∀ data, decode cmd data = .error .reservedBit) ∨
        (cmd &&& reservedMask op.format = 0#32 ∧ ∀ data, decode cmd data = decodeFields op cmd data)) := by
  cases hop : Opcode.ofCode (opcOf cmd) with
  | none => exact .inl ⟨rfl, decode_of_ofCode_none hop⟩
  | some op =>
    refine .inr ⟨op, (code_of_ofCode hop).symm, ?_⟩
    by_cases hm : cmd &&& reservedMask op.format = 0#32
    · exact .inr ⟨hm, decode_of_clear (code_of_ofCode hop).symm hm⟩
    · exact .inl ⟨hm, fun _ => decode_of_opcode hop hm⟩

/-- The fields of FB_SET_PIXEL with a color. -/
theorem decodeFields_fbSetPixel {c : Color} (h : colorOf cmd = c.code) (data : Word) :
    decodeFields .fbSetPixel cmd data = .ok (.fbSetPixel (xOf cmd) (yOf cmd) c) := by
  simp only [decodeFields, h, color_ofCode_code]

/-- The fields of FB_SET_PIXEL with the code that is no color (30_encoding.md R73). -/
theorem decodeFields_reservedColor (h : colorOf cmd = 0b11#2) (data : Word) :
    decodeFields .fbSetPixel cmd data = .error .reservedColor := by
  simp only [decodeFields, color_ofCode_eq_none.mpr h]

/-- The fields give a well-formed command of the opcode, which has `cmd_data` as its operand where the format is T, unless
they are those of FB_SET_PIXEL with `COLOR = 0b11`. -/
theorem decodeFields_cases (op : Opcode) (cmd data : Word) :
    (op = .fbSetPixel ∧ colorOf cmd = 0b11#2 ∧ decodeFields op cmd data = .error .reservedColor) ∨
    (¬(op = .fbSetPixel ∧ colorOf cmd = 0b11#2) ∧ ∃ i, decodeFields op cmd data = .ok i ∧ i.opcode = op ∧
      i.wellFormed = true ∧ (op.format = .T → (encode i).2 = data)) := by
  have hdata : BitVec.ofInt 32 (tempOf data) = data := BitVec.ofInt_toInt
  have htemp := decide_eq_true (fitsTemp_tempOf data)
  have hfield (lo n : Nat) : decide (fitsField n (fieldOf cmd lo n)) = true := decide_eq_true (fieldOf_lt cmd lo n)
  cases op
  case fbSetPixel =>
    cases hc : Color.ofCode (colorOf cmd) with
    | none =>
      have hcode := color_ofCode_eq_none.mp hc
      exact .inl ⟨rfl, hcode, decodeFields_reservedColor hcode data⟩
    | some c =>
      refine .inr ⟨fun h => ?_, _, decodeFields_fbSetPixel (color_code_of_ofCode hc).symm data, rfl,
        Bool.and_eq_true_iff.mpr ⟨hfield 0 8, hfield 8 8⟩, nofun⟩
      exact absurd (color_ofCode_eq_none.mpr h.2) (by simp [hc])
  case fsmCheck | anFormatTemp => exact .inr ⟨nofun, _, rfl, rfl, htemp, fun _ => hdata⟩
  case anClear | anSerialize | fbSerialize => exact .inr ⟨nofun, _, rfl, rfl, rfl, nofun⟩
  case anWriteDigit | anWriteAscii =>
    exact .inr ⟨nofun, _, rfl, rfl, Bool.and_eq_true_iff.mpr ⟨hfield 24 4, hfield 0 8⟩, nofun⟩
  case anCmdBlink | anCmdBrightness => exact .inr ⟨nofun, _, rfl, rfl, hfield 0 8, nofun⟩
  case fbConfigure => exact .inr ⟨nofun, _, rfl, rfl, Bool.and_eq_true_iff.mpr ⟨hfield 0 8, hfield 8 8⟩, nofun⟩

/-- Only the two opcodes of format T read `cmd_data` (30_encoding.md R74). -/
theorem decodeFields_data (hf : op.format ≠ .T) (cmd data data' : Word) :
    decodeFields op cmd data = decodeFields op cmd data' := by
  cases op
  case fsmCheck | anFormatTemp => exact absurd rfl hf
  all_goals rfl

/-! ## Round trips -/

/-- The opcode field of an encoded command (30_encoding.md R61). -/
theorem opcOf_encode : ∀ i : Instr, opcOf (encode i).1 = i.opcode.code
  | .fsmCheck t => OpcodeField.fsmCheck t
  | .anClear => OpcodeField.anClear
  | .anWriteDigit p d v => OpcodeField.anWriteDigit p d v
  | .anWriteAscii p d v => OpcodeField.anWriteAscii p d v
  | .anFormatTemp t => OpcodeField.anFormatTemp t
  | .anSerialize => OpcodeField.anSerialize
  | .anCmdBlink v => OpcodeField.anCmdBlink v
  | .anCmdBrightness v => OpcodeField.anCmdBrightness v
  | .fbConfigure w h => OpcodeField.fbConfigure w h
  | .fbSetPixel x y c => OpcodeField.fbSetPixel x y c
  | .fbSerialize => OpcodeField.fbSerialize

/-- An encoded command has no reserved bit set (30_encoding.md R70). -/
theorem reserved_encode : ∀ i : Instr, (encode i).1 &&& reservedMask i.opcode.format = 0#32
  | .fsmCheck t => ReservedBitsClear.fsmCheck t
  | .anClear => ReservedBitsClear.anClear
  | .anWriteDigit p d v => ReservedBitsClear.anWriteDigit p d v
  | .anWriteAscii p d v => ReservedBitsClear.anWriteAscii p d v
  | .anFormatTemp t => ReservedBitsClear.anFormatTemp t
  | .anSerialize => ReservedBitsClear.anSerialize
  | .anCmdBlink v => ReservedBitsClear.anCmdBlink v
  | .anCmdBrightness v => ReservedBitsClear.anCmdBrightness v
  | .fbConfigure w h => ReservedBitsClear.fbConfigure w h
  | .fbSetPixel x y c => ReservedBitsClear.fbSetPixel x y c
  | .fbSerialize => ReservedBitsClear.fbSerialize

/-- The fields of an encoded command whose operands fit are its operands. -/
theorem decodeFields_encode {i : Instr} (hi : i.wellFormed = true) :
    decodeFields i.opcode (encode i).1 (encode i).2 = .ok i := by
  cases i <;> simp only [Instr.wellFormed, Bool.and_eq_true, decide_eq_true_eq] at hi
  case fsmCheck | anFormatTemp => simp only [decodeFields, encode, Instr.opcode, tempOf_ofInt hi]
  case anClear | anSerialize | fbSerialize => rfl
  case anWriteDigit | anWriteAscii =>
    simp only [decodeFields, encode, Instr.opcode, posOf_wordA _ _ _ _ hi.1, dpOf_wordA, valOf_wordA _ _ _ _ hi.2]
  case anCmdBlink | anCmdBrightness => simp only [decodeFields, encode, Instr.opcode, valOf_wordV _ _ hi]
  case fbConfigure =>
    simp only [decodeFields, encode, Instr.opcode, xOf_wordG _ _ _ hi.1, yOf_wordG _ _ _ hi.2]
  case fbSetPixel =>
    rw [Instr.opcode, encode, decodeFields_fbSetPixel (colorOf_wordP _ _ _ _), xOf_wordP _ _ _ _ hi.1,
      yOf_wordP _ _ _ _ hi.2]

/-- Settles O2: the encoded word has its opcode and no reserved bit, so the decoder reads its fields, which are the
operands. -/
theorem decodeOfEncodeIsTheCommand : Obligations.DecodeOfEncodeIsTheCommand := by
  intro i hi
  rw [decode_of_clear (opcOf_encode i) (reserved_encode i), decodeFields_encode hi]

/-- Settles O3: an accepted word is the word of its fields, and the fields give a well-formed command. -/
theorem acceptedWordSpellsOneCommand : Obligations.AcceptedWordSpellsOneCommand := by
  intro cmd data i h
  obtain ⟨ho, hm, hword⟩ := decode_eq_ok h
  have hfields := (decode_of_clear ho hm data).symm.trans h
  rcases decodeFields_cases i.opcode cmd data with ⟨-, -, he⟩ | ⟨-, j, hj, -, hwf, hdata⟩
  · exact nomatch he.symm.trans hfields
  · obtain rfl : j = i := Except.ok.inj (hj.symm.trans hfields)
    refine ⟨hwf, hword, hdata, fun hf data' => ?_⟩
    rw [decode_of_clear ho hm data', decodeFields_data hf cmd data' data, hfields]

/-! ## The fields as arithmetic on the word -/

/-- `cmd[lo+n-1 : lo]` by division and remainder (00_scope.md R9). -/
theorem fieldOf_eq (cmd : Word) (lo n : Nat) : fieldOf cmd lo n = cmd.toNat / 2 ^ lo % 2 ^ n := by
  rw [fieldOf, BitVec.extractLsb'_toNat, Nat.shiftRight_eq_div_pow]

theorem toNat_opcOf (cmd : Word) : (opcOf cmd).toNat = cmd.toNat / 2 ^ 28 :=
  (fieldOf_eq cmd 28 4).trans (Nat.mod_eq_of_lt (by have := cmd.isLt; omega))

theorem dpOf_eq (cmd : Word) : dpOf cmd = decide (cmd.toNat / 2 ^ 23 % 2 = 1) := Nat.testBit_eq_decide_div_mod_eq

/-- Two's complement written out (30_encoding.md R64). -/
theorem tempOf_eq (data : Word) :
    tempOf data = if data.toNat < 2 ^ 31 then (data.toNat : Int) else (data.toNat : Int) - 2 ^ 32 := by
  rw [tempOf, BitVec.toInt_eq_toNat_cond]
  have hhalf : 2 * data.toNat < 2 ^ 32 ↔ data.toNat < 2 ^ 31 := by omega
  simp only [hhalf, Nat.cast_pow, Nat.cast_ofNat]

/-! ## Rejections -/

/-- The codes that are no opcode are those outside `0x1` to `0xB` (30_encoding.md R71). -/
theorem ofCode_eq_none_iff {c : BitVec 4} : Opcode.ofCode c = none ↔ ¬(0x1 ≤ c.toNat ∧ c.toNat ≤ 0xB) := by
  revert c; decide

theorem code_toNat_range (op : Opcode) : 0x1 ≤ op.code.toNat ∧ op.code.toNat ≤ 0xB := by
  cases op <;> decide

/-- FB_SET_PIXEL is the opcode of code `0xA` (30_encoding.md R69). -/
theorem code_toNat_eq_fbSetPixel_iff {op : Opcode} : op.code.toNat = 0xA ↔ op = .fbSetPixel := by
  cases op <;> decide

/-- Settles O4, by the three answers of the decoder; the masks written out are the formats' masks for each opcode. -/
theorem decoderRejectsByTheFirstFailingCheck : Obligations.DecoderRejectsByTheFirstFailingCheck := by
  intro cmd data opc mask
  have hopc : (opcOf cmd).toNat = opc := toNat_opcOf cmd
  rcases decode_cases cmd with ⟨hnone, hdec⟩ | ⟨op, ho, hcase⟩
  · have hout := hopc ▸ ofCode_eq_none_iff.mp hnone
    exact ⟨fun _ => hdec data, fun hin => absurd hin hout, fun hA => absurd (by omega) hout,
      fun hin => absurd hin hout⟩
  · have hcode : op.code.toNat = opc := ho ▸ hopc
    have hin := hcode ▸ code_toNat_range op
    have hA : opc = 0xA ↔ op = .fbSetPixel := hcode ▸ code_toNat_eq_fbSetPixel_iff
    have hmask : mask = reservedMask op.format := by
      simp only [mask, ← hcode]
      cases op <;> rfl
    rw [hmask, hA]
    refine ⟨fun hout => absurd hin hout, ?_⟩
    rcases hcase with ⟨hm, hdec⟩ | ⟨hm, hdec⟩
    · exact ⟨fun _ _ => hdec data, fun _ h => absurd h hm, fun _ h => absurd h hm⟩
    · rw [hdec]
      rcases decodeFields_cases op cmd data with ⟨hpix, hcol, he⟩ | ⟨hcol, i, hi, rfl, -⟩
      · exact ⟨fun _ h => absurd hm h, fun _ _ _ => he, fun _ _ h => absurd ⟨hpix, hcol⟩ h⟩
      · exact ⟨fun _ h => absurd hm h, fun hpix _ h => absurd ⟨hpix, h⟩ hcol, fun _ _ _ => ⟨i, hi, hcode⟩⟩

theorem acceptCommand_of_decode_error {data : Word} {e : DecodeError} (h : decode cmd data = .error e) (s : State) :
    acceptCommand cmd data s = .next (raise .illegal s) := by
  simp only [acceptCommand, h]

/-- The words of 30_encoding.md R71 to R73 are not decoded: a word of FB_SET_PIXEL without a color fails the color check,
if not the check of the reserved bits before it. -/
theorem decode_illegal
    (h : ((opcOf cmd).toNat = 0 ∨ 0xC ≤ (opcOf cmd).toNat) ∨
      (∃ op, Opcode.ofCode (opcOf cmd) = some op ∧ cmd &&& reservedMask op.format ≠ 0#32) ∨
      (opcOf cmd = 0xA#4 ∧ colorOf cmd = 0b11#2)) (data : Word) : ∃ e, decode cmd data = .error e := by
  rcases h with hopc | ⟨op, hop, hm⟩ | ⟨hA, hcol⟩
  · exact ⟨_, decode_of_ofCode_none (ofCode_eq_none_iff.mpr (by omega)) data⟩
  · exact ⟨_, decode_of_opcode hop hm⟩
  · have hop : opcOf cmd = Opcode.fbSetPixel.code := hA
    by_cases hm : cmd &&& reservedMask Opcode.fbSetPixel.format = 0#32
    · exact ⟨_, (decode_of_clear hop hm data).trans (decodeFields_reservedColor hcol data)⟩
    · exact ⟨_, decode_of_opcode (hop ▸ ofCode_code _) hm⟩

/-- Settles O49: a word that is not decoded is turned away with ILLEGAL. -/
theorem illegalWordsHaveNoEffect : Obligations.IllegalWordsHaveNoEffect := by
  intro cmd data s h
  obtain ⟨_, he⟩ := decode_illegal h data
  exact ⟨_, acceptCommand_of_decode_error he s, sameBlock_raise _ s, rfl, rfl, rfl⟩

/-! ## The match masks -/

theorem opcOf_and (a b : Word) : opcOf (a &&& b) = opcOf a &&& opcOf b := BitVec.extractLsb'_and

/-- A word that matches its command's row under the opcode bits and the reserved bits is decided by its fields
(30_encoding.md R63 to R68). -/
theorem decode_of_match (op : Opcode) (h : cmd &&& (0xF0000000#32 ||| reservedMask op.format) = wordN op) (data : Word) :
    decode cmd data = decodeFields op cmd data := by
  have ho : opcOf cmd = op.code := by
    have hones : opcOf (0xF0000000#32 ||| reservedMask op.format) = BitVec.allOnes 4 := by cases op <;> rfl
    rw [← opcOf_wordN, ← h, opcOf_and, hones, BitVec.and_allOnes]
  have hm : cmd &&& reservedMask op.format = 0#32 := by
    have hsub : (0xF0000000#32 ||| reservedMask op.format) &&& reservedMask op.format = reservedMask op.format := by
      cases op <;> rfl
    have hclear : wordN op &&& reservedMask op.format = 0#32 := by cases op <;> rfl
    rw [← hsub, ← BitVec.and_assoc, h, hclear]
  exact decode_of_clear ho hm data

/-- Settles O5: each match mask is the opcode bits with the reserved bits of the format, and each field is a remainder of
a quotient of the word. -/
theorem formatFieldsAreTheNamedBits : Obligations.FormatFieldsAreTheNamedBits := by
  intro cmd data pos dp lo mid temp
  have hpos : pos = posOf cmd := (fieldOf_eq cmd 24 4).symm
  have hdp : dp = dpOf cmd := (dpOf_eq cmd).symm
  have hlo : lo = fieldOf cmd 0 8 := by rw [fieldOf_eq, pow_zero, Nat.div_one]; rfl
  have hmid : mid = yOf cmd := (fieldOf_eq cmd 8 8).symm
  have htemp : temp = tempOf data := (tempOf_eq data).symm
  have hcolor : cmd.toNat / 2 ^ 16 % 4 = (colorOf cmd).toNat := (fieldOf_eq cmd 16 2).symm
  rw [hpos, hdp, hlo, hmid, htemp, hcolor]
  have hcode {k : BitVec 2} (h : (colorOf cmd).toNat = k.toNat) : colorOf cmd = k := BitVec.eq_of_toNat_eq h
  refine ⟨?_, ?_, ?_, ?_, ?_, fun h => decode_of_match .anWriteDigit h data,
    fun h => decode_of_match .anWriteAscii h data, fun h => decode_of_match .anCmdBlink h data,
    fun h => decode_of_match .anCmdBrightness h data, fun h => decode_of_match .fbConfigure h data, fun h => ?_⟩
  · rintro rfl; exact decode_of_match .anClear rfl data
  · rintro rfl; exact decode_of_match .anSerialize rfl data
  · rintro rfl; exact decode_of_match .fbSerialize rfl data
  · rintro rfl; exact decode_of_match .fsmCheck rfl data
  · rintro rfl; exact decode_of_match .anFormatTemp rfl data
  · rw [decode_of_match .fbSetPixel h data]
    exact ⟨fun hc => decodeFields_fbSetPixel (c := .black) (hcode hc) data,
      fun hc => decodeFields_fbSetPixel (c := .white) (hcode hc) data,
      fun hc => decodeFields_fbSetPixel (c := .inverse) (hcode hc) data,
      fun hc => decodeFields_reservedColor (hcode hc) data⟩

/-! ## `cmd_data` -/

/-- The opcodes of format T are those of codes `0x1` and `0x5` (30_encoding.md R69). -/
theorem format_eq_T_iff {op : Opcode} : op.format = .T ↔ op.code.toNat = 0x1 ∨ op.code.toNat = 0x5 := by
  cases op <;> decide

/-- Whether the fields give a command does not depend on `cmd_data` (60_exceptions.md R133). -/
theorem decodeFields_isOk (op : Opcode) (cmd data data' : Word) :
    (decodeFields op cmd data).isOk = (decodeFields op cmd data').isOk := by
  cases op
  case fsmCheck | anFormatTemp => simp only [decodeFields, Except.isOk, Except.toBool]
  all_goals rfl

/-- Settles O6: of the decoder's answers the fields' alone looks at `cmd_data`, and they only for format T. -/
theorem cmdDataIsReadByFormatTOnly : Obligations.CmdDataIsReadByFormatTOnly := by
  intro cmd data data' s
  suffices h : ((opcOf cmd).toNat ≠ 0x1 ∧ (opcOf cmd).toNat ≠ 0x5 → decode cmd data = decode cmd data') ∧
      (decode cmd data).isOk = (decode cmd data').isOk from
    ⟨fun hop => by rw [acceptCommand, h.1 hop, acceptCommand], h.2⟩
  rcases decode_cases cmd with ⟨-, hdec⟩ | ⟨op, ho, ⟨-, hdec⟩ | ⟨-, hdec⟩⟩ <;> rw [hdec, hdec]
  · exact ⟨fun _ => rfl, rfl⟩
  · exact ⟨fun _ => rfl, rfl⟩
  · refine ⟨fun hop => decodeFields_data (fun hf => ?_) cmd data data', decodeFields_isOk op cmd data data'⟩
    rw [ho] at hop
    exact not_or.mpr hop (format_eq_T_iff.mp hf)

/-! ## The assembler -/

theorem assemble_of_wellFormed {i : Instr} (h : i.wellFormed = true) : assemble i = some (encode i) := if_pos h

theorem assemble_of_illFormed {i : Instr} (h : i.wellFormed = false) : assemble i = none := by
  simp only [assemble, h, Bool.false_eq_true, if_false]

/-- Settles O7: the assembler encodes exactly the well-formed commands, and those come back by O2. -/
theorem assemblerNeverTruncates : Obligations.AssemblerNeverTruncates :=
  ⟨fun _ => assemble_of_illFormed,
    fun i hi => ⟨_, _, assemble_of_wellFormed hi, decodeOfEncodeIsTheCommand i hi⟩, by decide, by decide⟩

/-- Settles O1: each line and each word of the table of R79 is evaluated. -/
theorem encodingExamples : Obligations.EncodingExamples := by
  unfold Obligations.EncodingExamples
  and_intros <;> decide

/-- Settles O8: the expansions are the equations of `expand`, and the lines are parsed by evaluation. -/
theorem pseudoInstructionsExpand : Obligations.PseudoInstructionsExpand :=
  ⟨fun _ _ => rfl, fun _ _ => rfl, fun _ _ => rfl, fun _ _ _ => rfl, by decide, by decide, by decide, by decide,
    by decide⟩

end Sys2Proof.Proofs
end

section
/-! PROOFS. The phase machine: the order of the thresholds, the transition table read as a set of rows, FSM_CHECK, and
checks of one constant sample (40_phase_fsm.md R80 to R88). -/

namespace Sys2Proof.Proofs

open Sys2Proof.Machine Sys2Proof.Laws

variable {P : Params} {p q q' : Phase} {t : Int}

/-! ## The thresholds -/

/-- The bands round `P_ON` and `P_OFF` are not empty, and each end of the lower lies below the same end of the upper. -/
theorem thresholds_ordered (P : Params) :
    dnOn P < upOn P ∧ dnOff P < upOff P ∧ dnOn P < dnOff P ∧ upOn P < upOff P := by
  obtain ⟨hon, hhyst, -⟩ := P.ok
  unfold upOn dnOn upOff dnOff
  omega

theorem dnOn_lt_upOff (P : Params) : dnOn P < upOff P := by
  obtain ⟨-, hoff, hdn, -⟩ := thresholds_ordered P
  exact hdn.trans hoff

/-- Settles O17: the thresholds are sums and differences of signed words, `P_HYST` a positive one. -/
theorem thresholdsAreExact : Obligations.ThresholdsAreExact := by
  intro P
  obtain ⟨-, hhyst, -⟩ := P.ok
  have hrange : ∀ w : Word, -2 ^ 31 ≤ w.toInt ∧ w.toInt < 2 ^ 31 := fun w => ⟨w.le_toInt, w.toInt_lt⟩
  have hon := hrange P.raw.on
  have hoff := hrange P.raw.off
  have hmax := (hrange P.raw.hyst).2
  refine ⟨rfl, rfl, rfl, rfl, ?_⟩
  simp only [List.forall_mem_cons, List.not_mem_nil, false_implies, implies_true, and_true, upOn, dnOn, upOff, dnOff]
  omega

/-! ## The transition table -/

/-- Settles O18: the rows are the branches of the definition, in its order. -/
theorem transitionTableRowForRow : Obligations.TransitionTableRowForRow := fun _ _ =>
  ⟨fun h => if_pos h, fun h => if_neg h,
    fun h => if_pos h, fun h h' => (if_neg h).trans (if_pos h'), fun h h' => (if_neg h).trans (if_neg h'),
    fun h => if_pos h, fun h => if_neg h,
    fun h => if_pos h, fun h h' => (if_neg h).trans (if_pos h'), fun h h' => (if_neg h).trans (if_neg h')⟩

/-- A row that matches gives the transition: at the second row of a phase, the first does not match as well. -/
theorem nextPhase_of_row (h : PhaseRow P p t q) : nextPhase P p t = some q := by
  have hgap := dnOn_lt_upOff P
  cases h with
  | offHeatingUp _ h | heatingUpAtTemp _ h | atTempCoolingDown _ h | coolingDownOff _ h => exact if_pos h
  | heatingUpOff _ h => exact (if_neg (show ¬ upOff P ≤ t by omega)).trans (if_pos h)
  | coolingDownAtTemp _ h => exact (if_neg (show ¬ t ≤ dnOn P by omega)).trans (if_pos h)

/-- A transition is given by a row. -/
theorem row_of_nextPhase (h : nextPhase P p t = some q) : PhaseRow P p t q := by
  cases p <;> simp only [nextPhase] at h <;> split at h
  case off.isTrue ht => cases h; exact .offHeatingUp t ht
  case heatingUp.isTrue ht => cases h; exact .heatingUpAtTemp t ht
  case atTemp.isTrue ht => cases h; exact .atTempCoolingDown t ht
  case coolingDown.isTrue ht => cases h; exact .coolingDownOff t ht
  case off.isFalse | atTemp.isFalse => cases h
  case heatingUp.isFalse =>
    split at h <;> cases h
    exact .heatingUpOff t ‹_›
  case coolingDown.isFalse =>
    split at h <;> cases h
    exact .coolingDownAtTemp t ‹_›

/-- 40_phase_fsm.md R86: the transition function is the table read as a set of rows. -/
theorem nextPhase_eq_some_iff : nextPhase P p t = some q ↔ PhaseRow P p t q := ⟨row_of_nextPhase, nextPhase_of_row⟩

/-- Settles O19: two rows that match are both the one transition. -/
theorem atMostOneRowMatches : Obligations.AtMostOneRowMatches := fun _ _ _ =>
  ⟨fun _ _ h h' => Option.some.inj ((nextPhase_of_row h).symm.trans (nextPhase_of_row h')),
    fun _ => nextPhase_eq_some_iff⟩

/-- Settles O20: each row is one of the edges, and each edge has a sample that its row matches. -/
theorem edgeSetIsExact : Obligations.EdgeSetIsExact := by
  intro P p q
  simp only [nextPhase_eq_some_iff]
  constructor
  · rintro ⟨t, h⟩
    cases h <;> decide
  · intro h
    simp only [List.mem_cons, Prod.mk.injEq, List.not_mem_nil, or_false] at h
    obtain ⟨rfl, rfl⟩ | ⟨rfl, rfl⟩ | ⟨rfl, rfl⟩ | ⟨rfl, rfl⟩ | ⟨rfl, rfl⟩ | ⟨rfl, rfl⟩ := h
    · exact ⟨upOn P, .offHeatingUp _ le_rfl⟩
    · exact ⟨upOff P, .heatingUpAtTemp _ le_rfl⟩
    · exact ⟨dnOn P - 1, .heatingUpOff _ (Int.sub_one_lt_of_le le_rfl)⟩
    · exact ⟨dnOff P, .atTempCoolingDown _ le_rfl⟩
    · exact ⟨dnOn P, .coolingDownOff _ le_rfl⟩
    · exact ⟨upOff P, .coolingDownAtTemp _ le_rfl⟩

/-! ## FSM_CHECK -/

/-- One word is FSM_CHECK, with `cmd_data` as its signed sample (30_encoding.md R62, R64). -/
theorem decode_eq_fsmCheck_iff {cmd data : Word} :
    decode cmd data = .ok (.fsmCheck t) ↔ cmd = 0x10000000#32 ∧ t = data.toInt := by
  have hword : decode 0x10000000#32 data = .ok (.fsmCheck data.toInt) := decode_of_match .fsmCheck rfl data
  constructor
  · intro h
    obtain ⟨-, -, hcmd⟩ := decode_eq_ok h
    obtain rfl : cmd = 0x10000000#32 := hcmd.symm.trans (show wordN .fsmCheck = _ by decide)
    exact ⟨rfl, Instr.fsmCheck.inj (Except.ok.inj (h.symm.trans hword))⟩
  · rintro ⟨rfl, rfl⟩
    exact hword

/-- A word of a legal opcode with a reserved bit set ends with ILLEGAL (30_encoding.md R72). -/
theorem illegalOnReservedBit (op : Opcode) : IllegalOnReservedBit op := fun _ _ s ho hm =>
  acceptCommand_of_decode_error (decode_of_opcode (ho ▸ ofCode_code op) hm) s

variable {s s' : State}

theorem exec_fsmCheck_transition (h : nextPhase s.params s.phase t = some q) :
    exec (.fsmCheck t) s = .next (finish [] .ok true (s.setPhase q)) := by
  simp only [exec, execFsmCheck, h, respond_eq]

theorem exec_fsmCheck_noTransition (h : nextPhase s.params s.phase t = none) :
    exec (.fsmCheck t) s = .next (finish [] .ok false s) := by
  simp only [exec, execFsmCheck, h, respond_eq]

/-- What FSM_CHECK did, by whether the table has a transition (40_phase_fsm.md R84). -/
theorem exec_fsmCheck_eq_next (h : exec (.fsmCheck t) s = .next s') :
    (∃ q, nextPhase s.params s.phase t = some q ∧ s' = finish [] .ok true (s.setPhase q)) ∨
    (nextPhase s.params s.phase t = none ∧ s' = finish [] .ok false s) := by
  cases hq : nextPhase s.params s.phase t with
  | some q => exact .inl ⟨q, rfl, Host.Outcome.next.inj (h.symm.trans (exec_fsmCheck_transition hq))⟩
  | none => exact .inr ⟨rfl, Host.Outcome.next.inj (h.symm.trans (exec_fsmCheck_noTransition hq))⟩

/-- Settles O21: the encoding from the decoder's match mask, the effect from the two equations of FSM_CHECK, and the corner
cases from the rows, of which `t = DN_ON` in `HeatingUp` matches none. -/
theorem fsmCheckTakesAtMostOneTransition : Obligations.FsmCheckTakesAtMostOneTransition := by
  refine ⟨fun _ _ _ => decode_eq_fsmCheck_iff, illegalOnReservedBit .fsmCheck, fun _ _ _ => exec_fsmCheck_transition,
    fun _ _ => exec_fsmCheck_noTransition, fun P => ⟨nextPhase_of_row (.offHeatingUp _ le_rfl), ?_,
      nextPhase_of_row (.coolingDownOff _ le_rfl), nextPhase_of_row (.atTempCoolingDown _ le_rfl),
      nextPhase_of_row (.heatingUpAtTemp _ le_rfl), nextPhase_of_row (.coolingDownAtTemp _ le_rfl)⟩,
    fun s hparams hphase => ?_⟩
  · exact (if_neg (dnOn_lt_upOff P).not_ge).trans (if_neg (lt_irrefl _))
  · have hnext : nextPhase s.params s.phase 15500 = some .heatingUp := by
      rw [hparams, hphase]
      decide
    have hdecode := decode_eq_fsmCheck_iff.mpr ⟨rfl, show 15500 = (15500#32).toInt by decide⟩
    exact ⟨_, (acceptCommand_of_decode hdecode s).trans (exec_fsmCheck_transition hnext), rfl, rfl⟩

/-- Settles O22: a check without a transition ends over the state it found, so the same check finds none again. -/
theorem noTransitionIsRepeatable : Obligations.NoTransitionIsRepeatable := by
  intro t s s' h
  rcases exec_fsmCheck_eq_next h with ⟨q, hq, rfl⟩ | ⟨hnone, rfl⟩
  · exact ⟨.inr hq, fun hnone => nomatch hq.symm.trans hnone⟩
  · exact ⟨.inl rfl, fun _ => ⟨rfl, hnone, _, exec_fsmCheck_noTransition hnone, rfl, rfl⟩⟩

/-! ## One constant sample (40_phase_fsm.md R88) -/

/-- The sample of a transition to `Off` lies below the band round `P_ON`, that of one to `AtTemp` above the band round
`P_OFF`, so the same sample has no transition back. -/
theorem nextPhase_after_row_eq_none (h : PhaseRow P p t q) (hq : q = .off ∨ q = .atTemp) : nextPhase P q t = none := by
  obtain ⟨hon, hoff, -, -⟩ := thresholds_ordered P
  cases h with
  | offHeatingUp | atTempCoolingDown => simp at hq
  | heatingUpOff _ h | coolingDownOff _ h => exact if_neg (show ¬ upOn P ≤ t by omega)
  | heatingUpAtTemp _ h | coolingDownAtTemp _ h => exact if_neg (show ¬ t ≤ dnOff P by omega)

/-- A second transition of the same sample leaves `HeatingUp` or `CoolingDown`, so it goes to `Off` or `AtTemp`. -/
theorem row_after_row_target (h : PhaseRow P p t q) (h' : PhaseRow P q t q') : q' = .off ∨ q' = .atTemp := by
  have hq : ¬(q = .off ∨ q = .atTemp) := fun hq =>
    nomatch (nextPhase_after_row_eq_none h hq).symm.trans (nextPhase_of_row h')
  cases h' with
  | offHeatingUp | atTempCoolingDown => simp at hq
  | heatingUpOff | coolingDownOff => exact .inl rfl
  | heatingUpAtTemp | coolingDownAtTemp => exact .inr rfl

theorem phaseAfter_of_row (h : PhaseRow P p t q) (n : Nat) : phaseAfter P t (n + 1) p = phaseAfter P t n q := by
  rw [phaseAfter, nextPhase_of_row h, Option.getD_some]

theorem phaseAfter_of_none (h : nextPhase P p t = none) (n : Nat) : phaseAfter P t n p = p := by
  induction n with
  | zero => rfl
  | succ n ih => rw [phaseAfter, h, Option.getD_none, ih]

/-- After two checks of one sample there is no transition left. -/
theorem nextPhase_phaseAfter_two (P : Params) (t : Int) (p : Phase) : nextPhase P (phaseAfter P t 2 p) t = none := by
  cases h : nextPhase P p t with
  | none => rwa [phaseAfter_of_none h]
  | some q =>
    have hrow := row_of_nextPhase h
    rw [phaseAfter_of_row hrow]
    cases h' : nextPhase P q t with
    | none => rwa [phaseAfter_of_none h']
    | some q' =>
      have hrow' := row_of_nextPhase h'
      rw [phaseAfter_of_row hrow']
      exact nextPhase_after_row_eq_none hrow' (row_after_row_target hrow hrow')

theorem phaseAfter_add_two (P : Params) (t : Int) (p : Phase) (n : Nat) :
    phaseAfter P t (n + 2) p = phaseAfter P t 2 p :=
  phaseAfter_of_none (nextPhase_phaseAfter_two P t p) n

/-- A check of the sample is one step of `phaseAfter`. -/
theorem exec_fsmCheck_phase (h : exec (.fsmCheck t) s = .next s') : s'.phase = phaseAfter s.params t 1 s.phase := by
  rcases exec_fsmCheck_eq_next h with ⟨q, hq, rfl⟩ | ⟨hnone, rfl⟩
  · exact (phaseAfter_of_row (row_of_nextPhase hq) 0).symm
  · exact (phaseAfter_of_none hnone 1).symm

/-- Settles O23: two checks leave no transition, so the checks after them change nothing; the two longest chains are two
rows each. -/
theorem constantSampleSettles : Obligations.ConstantSampleSettles := by
  refine ⟨fun _ _ _ => exec_fsmCheck_phase, fun P t p n => ⟨phaseAfter_add_two P t p n, ?_⟩, fun P t h => ?_,
    fun P t h => ?_⟩
  · rw [phaseAfter_add_two]
    exact nextPhase_phaseAfter_two P t p
  · obtain ⟨-, -, -, hup⟩ := thresholds_ordered P
    have hfirst : PhaseRow P .off t .heatingUp := .offHeatingUp t (hup.le.trans h)
    exact ⟨phaseAfter_of_row hfirst 0, (phaseAfter_of_row hfirst 1).trans (phaseAfter_of_row (.heatingUpAtTemp t h) 0)⟩
  · obtain ⟨-, -, hdn, -⟩ := thresholds_ordered P
    have hfirst : PhaseRow P .atTemp t .coolingDown := .atTempCoolingDown t (h.trans hdn.le)
    exact ⟨phaseAfter_of_row hfirst 0, (phaseAfter_of_row hfirst 1).trans (phaseAfter_of_row (.coolingDownOff t h) 0)⟩

end Sys2Proof.Proofs
end

section
/-! PROOFS. The alphanumeric encoder: glyphs, the two writes, the temperature formatter, and the bytes the buffer and the
two command bytes give the stream (41_alnum_encoder.md R90 to R104). -/

namespace Sys2Proof.Proofs

open Sys2Proof.Machine Sys2Proof.Laws

variable {cmd data : Word}

/-! ## The words of the seven commands -/

/-- A decoded word matches its command's row under the opcode bits and the reserved bits (30_encoding.md R63 to R68). -/
theorem match_of_decode (op : Opcode) {i : Instr} (hop : i.opcode = op) (h : decode cmd data = .ok i) :
    cmd &&& (0xF0000000#32 ||| reservedMask op.format) = wordN op := by
  subst hop
  obtain ⟨ho, hm, -⟩ := decode_eq_ok h
  have hopc : opcOf (cmd &&& 0xF0000000#32) = i.opcode.code := by
    have hones : opcOf 0xF0000000#32 = BitVec.allOnes 4 := by decide
    rw [opcOf_and, hones, BitVec.and_allOnes, ho]
  have hlow : cmd &&& 0xF0000000#32 &&& 0x0FFFFFFF#32 = 0#32 := by
    rw [BitVec.and_assoc, show 0xF0000000#32 &&& 0x0FFFFFFF#32 = 0#32 by decide, BitVec.and_zero]
  rw [BitVec.and_or_distrib_left, hm, BitVec.or_zero, wordN_of_fields hopc hlow]

/-- A word spells a command exactly when it matches the command's row and its fields are the command's operands. -/
theorem decode_eq_ok_iff (op : Opcode) {i : Instr} (hop : i.opcode = op) : decode cmd data = .ok i ↔
    cmd &&& (0xF0000000#32 ||| reservedMask op.format) = wordN op ∧ decodeFields op cmd data = .ok i :=
  ⟨fun h => ⟨match_of_decode op hop h, (decode_of_match op (match_of_decode op hop h) data).symm.trans h⟩,
    fun ⟨hmatch, hfields⟩ => (decode_of_match op hmatch data).trans hfields⟩

/-- Under a mask of all ones, the match mask of formats N and T, one word matches. -/
theorem and_ones_eq_iff {w : Word} : cmd &&& 0xFFFFFFFF#32 = w ↔ cmd = w := by
  rw [show 0xFFFFFFFF#32 = BitVec.allOnes 32 by decide, BitVec.and_allOnes]

theorem decode_eq_anClear_iff : decode cmd data = .ok .anClear ↔ cmd = 0x20000000#32 :=
  (decode_eq_ok_iff .anClear rfl).trans ((and_iff_left rfl).trans and_ones_eq_iff)

theorem decode_eq_anSerialize_iff : decode cmd data = .ok .anSerialize ↔ cmd = 0x60000000#32 :=
  (decode_eq_ok_iff .anSerialize rfl).trans ((and_iff_left rfl).trans and_ones_eq_iff)

theorem decode_eq_anFormatTemp_iff {t : Int} :
    decode cmd data = .ok (.anFormatTemp t) ↔ cmd = 0x50000000#32 ∧ t = data.toInt := by
  refine (decode_eq_ok_iff .anFormatTemp rfl).trans (and_congr and_ones_eq_iff ?_)
  simp only [decodeFields, tempOf, Except.ok.injEq, Instr.anFormatTemp.injEq, eq_comm]

/-! ## Glyphs -/

/-- `DP_MASK` is bit 14 and no other (00_scope.md R5). -/
theorem getLsbD_dpMask : ∀ k < 16, dpMask.getLsbD k = decide (k = 14) := by decide

/-- Settles O25: the point is the one bit of `DP_MASK`, or-ed in or not. -/
theorem glyphIsFontEntryWithPoint : Obligations.GlyphIsFontEntryWithPoint := by
  intro P c dp
  refine ⟨rfl, fun k hk => ?_⟩
  rw [glyph, BitVec.getLsbD_or]
  cases dp with
  | false => simp
  | true => simp only [if_true, getLsbD_dpMask k hk, Bool.true_and]

/-- Without the point a glyph is the font entry. -/
theorem font_getElem?_glyph (P : Params) (c : Fin 128) : P.raw.font[c.val]? = some (glyph P c false) := by
  simp [glyph]

/-- With the point it is the font entry or-ed with `DP_MASK`. -/
theorem font_getElem?_glyph_point (P : Params) (c : Fin 128) :
    (P.raw.font[c.val]?).map (· ||| 0x4000#16) = some (glyph P c true) := by
  simp [glyph]

/-! ## The two writes -/

/-- A write out of range ends with BOUNDS (41_alnum_encoder.md R91, R94, R95). -/
theorem writeChar_eq_raise {pos : Option (Fin 8)} {code : Option (Fin 128)} (h : pos = none ∨ code = none) (dp : Bool)
    (s : State) : writeChar pos code dp s = raise .bounds s := by
  rcases h with rfl | rfl
  · rfl
  · cases pos <;> rfl

theorem exec_anWriteDigit_inRange {pos val : Nat} (hp : pos < 8) (hv : val ≤ 9) (dp : Bool) (s : State) :
    exec (.anWriteDigit pos dp val) s =
      .next (finish [] .ok false (s.anWrite ⟨pos, hp⟩ (glyph s.params ⟨0x30 + val, by omega⟩ dp))) := by
  simp only [exec, execAnWriteDigit, positionOperand_of_lt hp, digitOperand_of_le hv, writeChar, respond_eq]

theorem exec_anWriteAscii_inRange {pos val : Nat} (hp : pos < 8) (hv : val ≤ 127) (dp : Bool) (s : State) :
    exec (.anWriteAscii pos dp val) s =
      .next (finish [] .ok false (s.anWrite ⟨pos, hp⟩ (glyph s.params ⟨val, by omega⟩ dp))) := by
  simp only [exec, execAnWriteAscii, positionOperand_of_lt hp, charOperand_of_le hv, writeChar, respond_eq]

theorem exec_anWriteDigit_outOfRange {pos val : Nat} (h : 8 ≤ pos ∨ 9 < val) (dp : Bool) (s : State) :
    exec (.anWriteDigit pos dp val) s = .next (raise .bounds s) :=
  congrArg _ (writeChar_eq_raise (h.imp positionOperand_of_ge digitOperand_of_gt) dp s)

theorem exec_anWriteAscii_outOfRange {pos val : Nat} (h : 8 ≤ pos ∨ 127 < val) (dp : Bool) (s : State) :
    exec (.anWriteAscii pos dp val) s = .next (raise .bounds s) :=
  congrArg _ (writeChar_eq_raise (h.imp positionOperand_of_ge charOperand_of_gt) dp s)

/-- The character code `0x30 + d` is the code of the digit `d` (41_alnum_encoder.md R94, R95). -/
theorem charOperand_digit {d : Nat} (h : d ≤ 9) : charOperand (0x30 + d) = digitOperand d := by
  rw [charOperand_of_le (by omega), digitOperand_of_le h]

/-- Settles O27: the two operands are in range, or one is not and the write is turned away. -/
theorem anWriteDigitWritesOneWord : Obligations.AnWriteDigitWritesOneWord := by
  refine ⟨fun _ data => ⟨fun h => ⟨_, _, _, decode_of_match .anWriteDigit h data⟩,
      fun ⟨_, _, _, h⟩ => match_of_decode .anWriteDigit rfl h⟩, illegalOnReservedBit .anWriteDigit,
    fun _ _ dp s hp hv => exec_anWriteDigit_inRange hp hv dp s, fun _ _ dp s h => exec_anWriteDigit_outOfRange h dp s,
    fun s hparams => ?_⟩
  have hdecode : decode 0x31800005#32 0#32 = .ok (.anWriteDigit 1 true 5) := by decide
  have hglyph : glyph s.params 0x35 true = 0x4035#16 := by rw [hparams]; decide
  exact ⟨_, (acceptCommand_of_decode hdecode s).trans (exec_anWriteDigit_inRange (by decide) (by decide) true s),
    congrArg (s.an.set 1 ·) hglyph⟩

/-- Settles O28: as for AN_WRITE_DIGIT, whose digits have the codes `0x30` to `0x39`. -/
theorem anWriteAsciiWritesOneWord : Obligations.AnWriteAsciiWritesOneWord := by
  refine ⟨fun _ data => ⟨fun h => ⟨_, _, _, decode_of_match .anWriteAscii h data⟩,
      fun ⟨_, _, _, h⟩ => match_of_decode .anWriteAscii rfl h⟩, illegalOnReservedBit .anWriteAscii,
    fun _ _ dp s hp hv => exec_anWriteAscii_inRange hp hv dp s, fun _ _ dp s h => exec_anWriteAscii_outOfRange h dp s,
    fun pos d dp s hd => ?_, fun s hparams => ?_⟩
  · simp only [exec, execAnWriteAscii, execAnWriteDigit, charOperand_digit hd]
  · have hdecode : decode 0x40000045#32 0#32 = .ok (.anWriteAscii 0 false 0x45) := by decide
    have hglyph : glyph s.params 0x45 false = 0x0045#16 := by rw [hparams]; decide
    exact ⟨_, (acceptCommand_of_decode hdecode s).trans (exec_anWriteAscii_inRange (by decide) (by decide) false s),
      congrArg (s.an.set 0 ·) hglyph⟩

/-- Settles O29: both writes are turned away, and a refusal writes no state element. -/
theorem positionFromEightIsBounds : Obligations.PositionFromEightIsBounds := by
  intro pos val dp s hpos i hi
  have hexec : exec i s = .next (raise .bounds s) := by
    simp only [List.mem_cons, List.not_mem_nil, or_false] at hi
    rcases hi with rfl | rfl
    · exact exec_anWriteDigit_outOfRange (.inl hpos) dp s
    · exact exec_anWriteAscii_outOfRange (.inl hpos) dp s
  exact ⟨_, hexec, sameBlock_raise .bounds s, rfl, rfl, rfl⟩

/-! ## The temperature formatter -/

/-- The buffer of four cells: their glyphs in positions 0 to 3, zero above (41_alnum_encoder.md R96). -/
def renderCells (P : Params) (cells : Vector DisplayCell 4) : AnBuffer :=
  let word := fun (c : DisplayCell) => glyph P c.code c.dp
  #v[word cells[0], word cells[1], word cells[2], word cells[3], 0#16, 0#16, 0#16, 0#16]

theorem exec_anFormatTemp (t : Int) (s : State) : exec (.anFormatTemp t) s =
    .next (finish [] .ok false { s with an := renderCells s.params (formatCells s.params t) }) := rfl

/-- The bounds of `P_UPPER` (00_scope.md R5). -/
theorem upper_range (P : Params) : 100 < P.raw.upper ∧ P.raw.upper ≤ 1000 := by
  obtain ⟨-, -, hupper, -⟩ := P.ok
  exact hupper

theorem formatCells_four (P : Params) {t : Int} (h : 1000 ≤ t) (h' : t < 10000) : formatCells P t = cellsFour t :=
  if_pos ⟨h, h'⟩

theorem formatCells_three {P : Params} {t : Int} (h : 10000 ≤ t) (h' : t < 100 * (P.raw.upper : Int)) :
    formatCells P t = cellsThree t :=
  (if_neg (by omega)).trans (if_pos ⟨h, h'⟩)

/-- From the upper end of mode THREE on mode FOUR does not match either, since `P_UPPER` is over 100. -/
theorem formatCells_err {P : Params} {t : Int} (h : t < 1000 ∨ 100 * (P.raw.upper : Int) ≤ t) :
    formatCells P t = cellsErr := by
  obtain ⟨hupper, -⟩ := upper_range P
  exact (if_neg (by omega)).trans (if_neg (by omega))

/-- The digit of a place is the quotient's last decimal digit (41_alnum_encoder.md R98). -/
theorem digitAt_val {t : Int} (h : 0 ≤ t) (k : Nat) : (digitAt t k).val = (t / 10 ^ k % 10).toNat := by
  lift t to Nat using h
  simp only [digitAt, Int.toNat_natCast]
  norm_cast

theorem digitCell_code {t : Int} (h : 0 ≤ t) (k : Nat) (dp : Bool) :
    (digitCell t k dp).code.val = 0x30 + (t / 10 ^ k % 10).toNat :=
  congrArg (0x30 + ·) (digitAt_val h k)

/-- The place of the ones divides by nothing. -/
theorem ediv_ten_pow_zero (t : Int) : t / 10 ^ 0 = t := by rw [pow_zero, Int.ediv_one]

/-- Settles O31: each digit is its own decimal place of the sample, whose leading place the range of the mode bounds. -/
theorem formatTruncatesWithoutCarry : Obligations.FormatTruncatesWithoutCarry := by
  intro P t digitOf cells
  obtain ⟨-, hupper⟩ := upper_range P
  have hrange (k : Nat) (dp : Bool) : 0 ≤ digitOf (digitCell t k dp) ∧ digitOf (digitCell t k dp) ≤ 9 := by
    have hlt := (digitAt t k).isLt
    simp only [digitOf, digitCell, digitCode]
    omega
  have hplace (h : 0 ≤ t) (k : Nat) (dp : Bool) : digitOf (digitCell t k dp) = t / 10 ^ k % 10 := by
    simp only [digitOf, digitCell_code h]
    omega
  constructor <;> intro hlo hhi
  · have hcells : cells = cellsFour t := formatCells_four P hlo hhi
    have hplace := hplace (by omega)
    have h0 : digitOf (cellsFour t)[0] = t / 1000 % 10 := hplace 3 false
    have h1 : digitOf (cellsFour t)[1] = t / 100 % 10 := hplace 2 true
    have h2 : digitOf (cellsFour t)[2] = t / 10 % 10 := hplace 1 false
    have h3 : digitOf (cellsFour t)[3] = t % 10 := (hplace 0 false).trans (by rw [ediv_ten_pow_zero])
    rw [hcells, h0, h1, h2, h3]
    refine ⟨by omega, rfl, rfl, rfl, rfl, by omega, fun
      | 0 => hrange 3 false
      | 1 => hrange 2 true
      | 2 => hrange 1 false
      | 3 => hrange 0 false⟩
  · have hcells : cells = cellsThree t := formatCells_three hlo hhi
    have hplace := hplace (by omega)
    have h0 : digitOf (cellsThree t)[0] = t / 10000 % 10 := hplace 4 false
    have h1 : digitOf (cellsThree t)[1] = t / 1000 % 10 := hplace 3 false
    have h2 : digitOf (cellsThree t)[2] = t / 100 % 10 := hplace 2 true
    have h3 : digitOf (cellsThree t)[3] = t / 10 % 10 := hplace 1 false
    rw [hcells, h0, h1, h2, h3]
    refine ⟨by omega, rfl, rfl, rfl, rfl, by omega, fun
      | 0 => hrange 4 false
      | 1 => hrange 3 false
      | 2 => hrange 2 true
      | 3 => hrange 1 false⟩

/-- A digit cell without its point shows as the font entry of its digit. -/
theorem font_getElem?_digit (P : Params) {t : Int} (h : 0 ≤ t) (k : Nat) :
    P.raw.font[0x30 + (t / 10 ^ k % 10).toNat]? = some (glyph P (digitCell t k false).code false) := by
  rw [← digitCell_code h k false, font_getElem?_glyph]

theorem font_getElem?_digit_point (P : Params) {t : Int} (h : 0 ≤ t) (k : Nat) :
    (P.raw.font[0x30 + (t / 10 ^ k % 10).toNat]?).map (· ||| 0x4000#16) =
      some (glyph P (digitCell t k true).code true) := by
  rw [← digitCell_code h k true, font_getElem?_glyph_point]

/-- Settles O30: the buffer is the cells of the range the sample lies in, and each cell shows as its font entry. -/
theorem anFormatTempRendersTheModes : Obligations.AnFormatTempRendersTheModes := by
  refine ⟨fun _ _ _ => decode_eq_anFormatTemp_iff, illegalOnReservedBit .anFormatTemp, ?_, fun t s => ?_⟩
  · have hdecode := decode_eq_anFormatTemp_iff.mpr ⟨rfl, show 5527 = (0x00001597#32).toInt by decide⟩
    exact ⟨_, (acceptCommand_of_decode hdecode _).trans (exec_anFormatTemp 5527 _), by decide⟩
  · intro font plain point digit
    obtain ⟨-, hupper⟩ := upper_range s.params
    refine ⟨_, exec_anFormatTemp t s, rfl, rfl, rfl, rfl, fun hlo hhi => ?_, fun hlo hhi => ?_, fun h => ?_⟩
    · have hpos : 0 ≤ t := by omega
      rw [formatCells_four s.params hlo hhi]
      have hones : plain (digit t) _ := ediv_ten_pow_zero t ▸ font_getElem?_digit s.params hpos 0
      exact ⟨font_getElem?_digit s.params hpos 3, font_getElem?_digit_point s.params hpos 2,
        font_getElem?_digit s.params hpos 1, hones, by omega, by omega⟩
    · have hpos : 0 ≤ t := by omega
      rw [formatCells_three hlo hhi]
      exact ⟨font_getElem?_digit s.params hpos 4, font_getElem?_digit s.params hpos 3,
        font_getElem?_digit_point s.params hpos 2, font_getElem?_digit s.params hpos 1, by omega, by omega⟩
    · rw [formatCells_err h]
      exact ⟨font_getElem?_glyph _ 0x45, font_getElem?_glyph _ 0x52, font_getElem?_glyph _ 0x52,
        font_getElem?_glyph _ 0x21⟩

/-! ## The output stream -/

/-- The payload is the framing byte and the words in order, each low byte first (20_memory.md R42, R43). -/
theorem anPayload_eq (an : AnBuffer) : anPayload an =
    0x00#8 :: (List.finRange 8).flatMap (fun p => [an[p].extractLsb' 0 8, an[p].extractLsb' 8 8]) := rfl

/-- Settles O26: the cleared buffer is eight zero words, of which AN_SERIALIZE makes sixteen zero bytes. -/
theorem anClearZeroesTheBuffer : Obligations.AnClearZeroesTheBuffer := by
  refine ⟨fun _ _ => decode_eq_anClear_iff, illegalOnReservedBit .anClear,
    fun s => ⟨Vector.replicate 8 0#16, fun k => Vector.getElem_replicate k.isLt, rfl⟩, fun s t h => ?_⟩
  obtain rfl : finish [] .ok false s.anClear = t := Host.Outcome.next.inj h
  refine ⟨_, exec_anSerialize _, (tagBytes_bytes _ _).trans ?_⟩
  simp only [settle_an, finish_an, anClear_an]
  decide

/-- Settles O33: the payload written out byte by byte, with `out_last` where no byte follows. -/
theorem anSerializeEmitsSeventeenBytes : Obligations.AnSerializeEmitsSeventeenBytes := by
  refine ⟨fun _ _ => decode_eq_anSerialize_iff, illegalOnReservedBit .anSerialize, fun s => ?_,
    _, _, exec_anFormatTemp 5527 _, exec_anSerialize _, (tagBytes_bytes _ _).trans (by decide)⟩
  rw [exec_anSerialize, anPayload_eq]
  rfl

/-- The rate is clamped to 3 and doubled above bit 0, so the bits or-ed together do not overlap. -/
theorem blinkByte_toNat (val : Nat) : (blinkByte val).toNat = 0x81 + 2 * min val 3 := by
  have hbits : ∀ r ≤ 3, (0x80#8 ||| 0x01#8 ||| (BitVec.ofNat 8 r <<< 1)).toNat = 0x81 + 2 * r := by decide
  exact hbits (min val 3) (min_le_right val 3)

/-- The level is clamped to 15 and lies below the bits of `0xE0`. -/
theorem brightnessByte_toNat (val : Nat) : (brightnessByte val).toNat = 0xE0 + min val 15 := by
  have hbits : ∀ l ≤ 15, (0xE0#8 ||| BitVec.ofNat 8 l).toNat = 0xE0 + l := by decide
  exact hbits (min val 15) (min_le_right val 15)

/-- Settles O34: the one byte of the payload is its last. -/
theorem anCmdBlinkEmitsOneByte : Obligations.AnCmdBlinkEmitsOneByte :=
  ⟨fun _ data => ⟨fun h => ⟨_, decode_of_match .anCmdBlink h data⟩,
      fun ⟨_, h⟩ => match_of_decode .anCmdBlink rfl h⟩,
    illegalOnReservedBit .anCmdBlink, fun val _ => ⟨blinkByte val, blinkByte_toNat val, rfl⟩,
    by decide, by decide, by decide, by decide, by decide⟩

/-- Settles O35: the one byte of the payload is its last, as for AN_CMD_BLINK. -/
theorem anCmdBrightnessEmitsOneByte : Obligations.AnCmdBrightnessEmitsOneByte :=
  ⟨fun _ data => ⟨fun h => ⟨_, decode_of_match .anCmdBrightness h data⟩,
      fun ⟨_, h⟩ => match_of_decode .anCmdBrightness rfl h⟩,
    illegalOnReservedBit .anCmdBrightness, fun val _ => ⟨brightnessByte val, brightnessByte_toNat val, rfl⟩,
    by decide, by decide, by decide, by decide, by decide⟩

end Sys2Proof.Proofs
end

section
/-! PROOFS. The framebuffer serializer: the one bit a color changes, the three commands by their cases, and what drawing,
clearing and serializing do to the bytes that are read (42_framebuffer.md R110 to R120). -/

namespace Sys2Proof.Proofs

open Sys2Proof.Machine Sys2Proof.Laws

variable {cmd data : Word} {s t : State}

/-! ## Colors -/

theorem getLsbD_one_shiftLeft {k : Nat} (hk : k < 8) (j : Nat) : (1#8 <<< k).getLsbD j = decide (j = k) := by
  rw [← BitVec.twoPow_eq, BitVec.getLsbD_twoPow, decide_eq_true hk, Bool.true_and]
  exact decide_eq_decide.mpr eq_comm

/-- Settles O38: the mask `1 << k` is bit `k` alone, or-ed in, and-ed out or xor-ed in. -/
theorem colorChangesOneBit : Obligations.ColorChangesOneBit := by
  intro b k j hk hj
  simp only [applyColor, BitVec.getLsbD_and, BitVec.getLsbD_or, BitVec.getLsbD_xor, BitVec.getLsbD_not,
    getLsbD_one_shiftLeft hk, hj]
  by_cases h : j = k <;> simp [h]

/-- The mask of Inverse is its own inverse under XOR (42_framebuffer.md R120). -/
theorem applyColor_inverse_inverse (k : Nat) (b : Byte) : applyColor .inverse k (applyColor .inverse k b) = b := by
  rw [applyColor, applyColor, BitVec.xor_assoc, BitVec.xor_self, BitVec.xor_zero]

/-- Every code but `0b11` is the code of a color (30_encoding.md R68). -/
theorem exists_color_code_iff {k : BitVec 2} : (∃ c : Color, k = c.code) ↔ k ≠ 0b11#2 := by
  constructor
  · rintro ⟨c, rfl⟩
    cases c <;> decide
  · intro h
    obtain ⟨c, hc⟩ := Option.ne_none_iff_exists'.mp (mt color_ofCode_eq_none.mp h)
    exact ⟨c, (color_code_of_ofCode hc).symm⟩

/-! ## FB_CONFIGURE -/

theorem exec_fbConfigure_supported {w h : Nat} (hg : (⟨w, h⟩ : Geometry) ∈ s.params.raw.geoms) :
    exec (.fbConfigure w h) s = .next (finish [] .ok false (s.setGeometry w h).fbClearPixels) := by
  simp only [exec, execFbConfigure, supported_iff.mpr hg, if_true, respond_eq]

theorem exec_fbConfigure_unsupported {w h : Nat} (hg : (⟨w, h⟩ : Geometry) ∉ s.params.raw.geoms) :
    exec (.fbConfigure w h) s = .next (raise .construction s) := by
  simp only [exec, execFbConfigure, mt supported_iff.mp hg, Bool.false_eq_true, if_false]

/-- The sides of a geometry of `P_GEOMS` are at least 1, and `(64, 64)` is none of them (00_scope.md R5). -/
theorem geoms_exclude (P : Params) : (⟨64, 64⟩ : Geometry) ∉ P.raw.geoms ∧ (⟨0, 0⟩ : Geometry) ∉ P.raw.geoms := by
  obtain ⟨-, -, -, -, -, hsides, hsquare, -⟩ := P.ok
  refine ⟨hsquare, fun hzero => ?_⟩
  obtain ⟨hw, -⟩ := hsides _ hzero
  exact absurd hw (by decide)

/-- Settles O37: a geometry of the set is stored whole with the pixels cleared, and every other is turned away. -/
theorem fbConfigureAcceptsOrKeeps : Obligations.FbConfigureAcceptsOrKeeps := by
  refine ⟨fun _ data => ⟨fun h => ⟨_, _, decode_of_match .fbConfigure h data⟩,
      fun ⟨_, _, h⟩ => match_of_decode .fbConfigure rfl h⟩, illegalOnReservedBit .fbConfigure,
    fun w h s hg => ⟨Memory.clearPixels s.fb, exec_fbConfigure_supported hg, read_clearPixels _ _ 0, fun a ha =>
      (read_clearPixels _ _ a).trans (if_neg (by omega)), geometry_toNat hg⟩,
    fun _ _ _ => exec_fbConfigure_unsupported, geoms_exclude, fun s hparams => ⟨?_, ?_⟩⟩
  · have hdecode : decode 0x90002080#32 0#32 = .ok (.fbConfigure 128 32) := by decide
    have hg : (⟨128, 32⟩ : Geometry) ∈ s.params.raw.geoms := by rw [hparams]; decide
    exact ⟨_, (acceptCommand_of_decode hdecode s).trans (exec_fbConfigure_supported hg), rfl, rfl, rfl⟩
  · have hdecode : decode 0x90004040#32 0#32 = .ok (.fbConfigure 64 64) := by decide
    exact (acceptCommand_of_decode hdecode s).trans (exec_fbConfigure_unsupported (geoms_exclude s.params).1)

/-! ## FB_SET_PIXEL -/

/-- A word is FB_SET_PIXEL exactly when it matches format P and its color bits are a color's (30_encoding.md R68). -/
theorem decode_eq_fbSetPixel_iff : (∃ x y c, decode cmd data = .ok (.fbSetPixel x y c)) ↔
    cmd &&& 0xFFFC0000#32 = 0xA0000000#32 ∧ colorOf cmd ≠ 0b11#2 := by
  rw [← exists_color_code_iff]
  constructor
  · rintro ⟨x, y, c, h⟩
    obtain ⟨-, -, hword⟩ := decode_eq_ok h
    exact ⟨match_of_decode .fbSetPixel rfl h, c, hword ▸ colorOf_wordP .fbSetPixel x y c⟩
  · rintro ⟨h, c, hc⟩
    exact ⟨_, _, c, (decode_of_match .fbSetPixel h data).trans (decodeFields_fbSetPixel hc data)⟩

/-- The state with one pixel drawn: its bit of its byte cleared, set or flipped (42_framebuffer.md R117). -/
def drawPixel (x y : Nat) (c : Color) (s : State) : State :=
  let i := pixelIndex s.cfgW x y
  { s with fb := Memory.write s.params.raw.fbTag s.fb i (applyColor c (pixelBit y) (s.fbRead i)) }

variable {x y : Nat} {c : Color}

theorem exec_fbSetPixel_unconfigured (hv : s.cfgValid = false) (x y : Nat) (c : Color) :
    exec (.fbSetPixel x y c) s = .next (raise .notConfigured s) := by
  simp only [exec, execFbSetPixel, hv, Bool.false_eq_true, if_false]

theorem exec_fbSetPixel_outside (hv : s.cfgValid = true) (hxy : ¬(x < s.cfgW.toNat ∧ y < s.cfgH.toNat)) (c : Color) :
    exec (.fbSetPixel x y c) s = .next (raise .bounds s) := by
  simp only [exec, execFbSetPixel, hv, if_true, mt inBounds_iff.mp hxy, Bool.false_eq_true, if_false]

theorem exec_fbSetPixel_inside (hv : s.cfgValid = true) (hx : x < s.cfgW.toNat) (hy : y < s.cfgH.toNat)
    (hi : pixelIndex s.cfgW x y < fbBytes s.params) (c : Color) :
    exec (.fbSetPixel x y c) s = .next (finish [] .ok false (drawPixel x y c s)) := by
  have hdraw : s.fbModify (pixelIndex s.cfgW x y) (applyColor c (pixelBit y)) = some (drawPixel x y c s) :=
    fbModify_eq_some.mpr ⟨hi, rfl⟩
  simp only [exec, execFbSetPixel, hv, if_true, inBounds_iff.mpr ⟨hx, hy⟩, hdraw, respond_eq]

/-- On a pixel in bounds FB_SET_PIXEL is answered only by drawing it. -/
theorem exec_fbSetPixel_eq_next (hv : s.cfgValid = true) (hx : x < s.cfgW.toNat) (hy : y < s.cfgH.toNat)
    (h : exec (.fbSetPixel x y c) s = .next t) : t = finish [] .ok false (drawPixel x y c s) := by
  by_cases hi : pixelIndex s.cfgW x y < fbBytes s.params
  · exact Host.Outcome.next.inj (h.symm.trans (exec_fbSetPixel_inside hv hx hy hi c))
  · have hnone : s.fbModify (pixelIndex s.cfgW x y) (applyColor c (pixelBit y)) = none :=
      fbModify_eq_none.mpr (Nat.le_of_not_lt hi)
    simp [exec, execFbSetPixel, hv, inBounds_iff.mpr ⟨hx, hy⟩, hnone] at h

/-- Drawing a pixel changes how its own byte reads and no other. -/
theorem fbRead_drawPixel (hm : Memory.wf s.params.raw.fbTag (fbBytes s.params) s.fb = true) (x y : Nat) (c : Color)
    (a : Nat) : (drawPixel x y c s).fbRead a =
      if a = pixelIndex s.cfgW x y then applyColor c (pixelBit y) (s.fbRead a) else s.fbRead a := by
  obtain ⟨hsorted, -⟩ := wf_iff.mp hm
  refine (read_write hsorted).trans ?_
  by_cases ha : a = pixelIndex s.cfgW x y
  · rw [if_pos ha, if_pos ha, ha]
  · rw [if_neg ha, if_neg ha]; rfl

/-- Settles O40: the four outcomes are the four equations of FB_SET_PIXEL, and the reads are those after drawing. -/
theorem fbSetPixelChangesOneByte : Obligations.FbSetPixelChangesOneByte := by
  refine ⟨fun _ _ => decode_eq_fbSetPixel_iff.symm, illegalOnReservedBit .fbSetPixel, fun cmd data s hA hcol => ?_,
    fun x y c _ hv => exec_fbSetPixel_unconfigured hv x y c, fun _ _ c _ hv hout =>
      exec_fbSetPixel_outside hv (by omega) c, fun x y c s hv hx hy hi hm => ?_, ?_⟩
  · obtain ⟨_, he⟩ := decode_illegal (.inr (.inr ⟨hA, hcol⟩)) data
    exact acceptCommand_of_decode_error he s
  · exact ⟨_, exec_fbSetPixel_inside hv hx hy hi c,
      fun a ha => (fbRead_drawPixel hm x y c a).trans (if_pos ha),
      fun a ha => (fbRead_drawPixel hm x y c a).trans (if_neg ha)⟩
  · have hdecode : decode 0xA0010A03#32 0#32 = .ok (.fbSetPixel 3 10 .white) := by decide
    exact ⟨_, _, exec_fbConfigure_supported (by decide), by decide,
      (acceptCommand_of_decode hdecode _).trans
        (exec_fbSetPixel_inside rfl (by decide) (by decide) (by decide) .white), by decide⟩

/-- Settles O41: a refusal writes no state element, and in bounds the one answer is OK. -/
theorem fbTurnedAway : Obligations.FbTurnedAway := by
  refine ⟨fun x y c s hv i hi => ?_, fun x y c s hv hout => ?_, fun x y c s t hv hx hy h => ?_⟩
  · have hexec : exec i s = .next (raise .notConfigured s) := by
      rcases List.mem_pair.mp hi with rfl | rfl
      · exact exec_fbSetPixel_unconfigured hv x y c
      · exact exec_fbSerialize_unconfigured hv
    exact ⟨_, hexec, sameBlock_raise .notConfigured s, rfl, rfl, rfl⟩
  · exact ⟨_, exec_fbSetPixel_outside hv hout c, sameBlock_raise .bounds s, rfl, rfl, rfl⟩
  · rw [exec_fbSetPixel_eq_next hv hx hy h]
    rfl

/-! ## FB_SERIALIZE -/

theorem decode_eq_fbSerialize_iff : decode cmd data = .ok .fbSerialize ↔ cmd = 0xB0000000#32 :=
  (decode_eq_ok_iff .fbSerialize rfl).trans ((and_iff_left rfl).trans and_ones_eq_iff)

/-- The payload of FB_SERIALIZE: the whole of `FB` on channel 1 (20_memory.md R47). -/
def fbPayload (s : State) : List StreamByte := tagBytes .framebuffer (s.fbReadBytes 0 (fbBytes s.params))

theorem fbPayload_length (s : State) : (fbPayload s).length = fbBytes s.params := by
  rw [fbPayload, tagBytes_length, fbReadBytes_length]

theorem fbPayload_getElem? {k : Nat} (hk : k < fbBytes s.params) :
    (fbPayload s)[k]? = some ⟨.framebuffer, s.fbRead k, decide (k + 1 = fbBytes s.params)⟩ := by
  rw [fbPayload, tagBytes_getElem?, fbReadBytes_getElem? s hk, fbReadBytes_length, Option.map_some]

/-- Byte `k` of a payload, where there is one, is `FB[k]`. -/
theorem byte_of_fbPayload_getElem? {k : Nat} {b : StreamByte} (h : (fbPayload s)[k]? = some b) :
    b.byte = s.fbRead k := by
  obtain ⟨hk, -⟩ := List.getElem?_eq_some_iff.mp h
  rw [fbPayload_length] at hk
  rw [← Option.some.inj ((fbPayload_getElem? hk).symm.trans h)]

theorem exec_fbSerialize_payload (hv : s.cfgValid = true) :
    exec .fbSerialize s = .next (finish (fbPayload s) .ok false s) := exec_fbSerialize_configured hv

/-- The test devices after `fb.cfg 128, 32`, the state the worked examples draw in. -/
def blankPanel : State :=
  (finish [] .ok false ((State.resetWith Params.testBench).setGeometry 128 32).fbClearPixels).settle

/-- The blank panel after `fb.px 3, 10, white`. -/
def dottedPanel : State := (finish [] .ok false (drawPixel 3 10 .white blankPanel)).settle

/-- The worked example of 42_framebuffer.md R119: the tag, one bit of byte 132, and zero everywhere else. -/
theorem fbRead_dottedPanel (k : Nat) : dottedPanel.fbRead k =
    if k = 0 then Params.testBench.raw.fbTag else if k = 132 then 0x04#8 else 0x00#8 := by
  have hblank : blankPanel.fbRead k = if k = 0 then Params.testBench.raw.fbTag else 0x00#8 := rfl
  have hindex : pixelIndex blankPanel.cfgW 3 10 = 132 := by decide
  have hbit : applyColor .white (pixelBit 10) 0x00#8 = 0x04#8 := by decide
  refine (fbRead_drawPixel (s := blankPanel) rfl 3 10 .white k).trans ?_
  rw [hblank, hindex]
  by_cases hk : k = 132
  · subst hk
    exact hbit
  · rw [if_neg hk, if_neg hk]

/-- Settles O42: the payload is `FB` byte for byte, so the legal states' tag and zero bytes are the payload's. -/
theorem fbSerializeEmitsTheWholeBuffer : Obligations.FbSerializeEmitsTheWholeBuffer := by
  refine ⟨fun _ _ => decode_eq_fbSerialize_iff, illegalOnReservedBit .fbSerialize,
    fun _ => exec_fbSerialize_unconfigured, fun s hv => ⟨_, exec_fbSerialize_payload hv, fbPayload_length s,
      fun k => fbPayload_getElem?⟩, fun s t hs hv h => ?_, ?_⟩
  · obtain rfl := Host.Outcome.next.inj ((exec_fbSerialize_payload hv).symm.trans h)
    refine ⟨?_, fun k b hk hb => (byte_of_fbPayload_getElem? hb).trans (hs.beyond k hk)⟩
    rw [← hs.tagByte]
    exact fbPayload_getElem? (Nat.lt_add_right _ Nat.one_pos)
  · have hsize : fbBytes dottedPanel.params = 1025 := by decide
    refine ⟨_, _, _, exec_fbConfigure_supported (by decide), exec_fbSetPixel_inside rfl (by decide) (by decide)
      (by decide) .white, exec_fbSerialize_payload (s := dottedPanel) rfl, (fbPayload_length _).trans hsize,
      fun k hk => ?_⟩
    rw [finish_pendingBytes, fbPayload_getElem? (hk.trans_eq hsize.symm), Option.map_some, fbRead_dottedPanel]

/-! ## Drawing twice, and drawing then serializing (42_framebuffer.md R120) -/

/-- In a legal configured state every pixel in bounds has its byte (20_memory.md R46). -/
theorem pixelIndex_lt_fbBytes (hs : s.Legal) (hv : s.cfgValid = true) (hx : x < s.cfgW.toNat)
    (hy : y < s.cfgH.toNat) : pixelIndex s.cfgW x y < fbBytes s.params :=
  Nat.lt_of_le_of_lt (pixelIndex_mem_pixelBytes hx hy).2 (pixelBytes_le_fbBytes (hs.geometry hv))

theorem wf_drawPixel (hm : Memory.wf s.params.raw.fbTag (fbBytes s.params) s.fb = true)
    (hi : pixelIndex s.cfgW x y < fbBytes s.params) (c : Color) :
    Memory.wf s.params.raw.fbTag (fbBytes s.params) (drawPixel x y c s).fb = true := wf_write hm hi

/-- Drawing reads and writes the framebuffer alone. -/
theorem drawPixel_congr (h : s.SameFramebuffer t) (x y : Nat) (c : Color) :
    (drawPixel x y c t).fb = (drawPixel x y c s).fb := by
  simp only [drawPixel, fbRead_eq, h.params, h.fb, h.cfgW]

/-- Every byte reads as at first once a pixel is inverted twice, and equal reads are equal data. -/
theorem drawPixel_inverse_twice (hm : Memory.wf s.params.raw.fbTag (fbBytes s.params) s.fb = true)
    (hi : pixelIndex s.cfgW x y < fbBytes s.params) :
    (drawPixel x y .inverse (drawPixel x y .inverse s)).fb = s.fb := by
  have hm₁ := wf_drawPixel hm hi .inverse
  refine equalFramebuffersAreEqualData _ _ _ _ (wf_drawPixel hm₁ hi .inverse) hm fun a => ?_
  have honce := fbRead_drawPixel hm x y .inverse a
  refine (fbRead_drawPixel hm₁ x y .inverse a).trans ?_
  by_cases ha : a = pixelIndex s.cfgW x y
  · exact (if_pos ha).trans ((congrArg _ (honce.trans (if_pos ha))).trans (applyColor_inverse_inverse _ _))
  · exact (if_neg ha).trans (honce.trans (if_neg ha))

/-- Settles O43: the state after the first draw is all the second command looks at, of which Inverse gives the old bytes
back, and the payload has the byte in which White set the bit. -/
theorem inverseTwiceRestoresAndWhiteShows : Obligations.InverseTwiceRestoresAndWhiteShows := by
  intro x y s hs hv hx hy
  have hi := pixelIndex_lt_fbBytes hs hv hx hy
  refine ⟨⟨_, exec_fbSetPixel_inside hv hx hy hi .inverse, fun t' hsame => ?_⟩,
    _, exec_fbSetPixel_inside hv hx hy hi .white, fun t' hsame => ?_⟩
  · have hexec := exec_fbSetPixel_inside (s := t') (hsame.cfgValid.trans hv) (hsame.cfgW ▸ hx) (hsame.cfgH ▸ hy)
      (hsame.cfgW ▸ hsame.params ▸ hi) .inverse
    exact ⟨_, hexec, (drawPixel_congr hsame x y .inverse).trans (drawPixel_inverse_twice hs.fbForm hi)⟩
  · obtain ⟨u, hu, hbytes⟩ := fbSerialize_bytes_congr hsame (exec_fbSerialize_payload hv)
    refine ⟨u, hu, _, (congrArg (·[pixelIndex s.cfgW x y]?) hbytes).trans (fbPayload_getElem? hi), ?_⟩
    have hrow : y % 8 < 8 := Nat.mod_lt y (by decide)
    obtain ⟨-, hwhite, -⟩ := colorChangesOneBit (s.fbRead (pixelIndex s.cfgW x y)) (y % 8) (y % 8) hrow hrow
    have hread := (fbRead_drawPixel hs.fbForm x y .white (pixelIndex s.cfgW x y)).trans (if_pos rfl)
    exact (congrArg (BitVec.getLsbD · (y % 8)) hread).trans (hwhite.trans (if_pos rfl))

/-! ## The tag byte -/

/-- No command writes byte 0: FB_CONFIGURE keeps it, and the index of a pixel is at least 1 (42_framebuffer.md R118). -/
theorem exec_keeps_tagByte {i : Instr} (h : exec i s = .next t) : t.fbRead 0 = s.fbRead 0 := by
  rcases exec_cases h with ⟨_, _, -, -, rfl⟩ | ⟨_, -, rfl⟩ | ⟨_, _, -, rfl⟩ | ⟨_, _, -, -, rfl⟩ |
    ⟨x, y, _, -, -, -, -, -, rfl⟩ | ⟨_, -, -, rfl⟩
  case inr.inr.inr.inl => exact read_clearPixels _ _ 0
  case inr.inr.inr.inr.inl =>
    have hindex : 0 ≠ pixelIndex s.cfgW x y := by unfold pixelIndex; omega
    exact read_write_other hindex
  all_goals rfl

theorem acceptCommand_keeps_tagByte (h : acceptCommand cmd data s = .next t) : t.fbRead 0 = s.fbRead 0 := by
  rcases acceptCommand_eq_next h with ⟨i, -, h⟩ | rfl
  · exact exec_keeps_tagByte h
  · rfl

theorem transfer_fbRead (p : Pins) (s : State) (a : Nat) : (transfer p s).fbRead a = s.fbRead a := by
  rcases transfer_cases p s with ⟨_, _, -, -, e⟩ | ⟨_, -, -, -, e⟩ | e <;> rw [e] <;> rfl

/-- Settles O44: a reset edge sets byte 0 and every other edge keeps it, as it keeps the parameters. -/
theorem tagByteIsNeverOverwritten : Obligations.TagByteIsNeverOverwritten := by
  refine ⟨fun _ => rfl, fun _ _ _ => exec_keeps_tagByte, fun s t htag h => ?_⟩
  rw [parametersAreFixed s t h, ← htag]
  obtain ⟨p, rest, ⟨-, -, rfl⟩ | ⟨-, -, -, -, h⟩ | ⟨-, rfl⟩ | rfl⟩ := step_eq_next h
  · exact htag.symm
  · have hkept := acceptCommand_keeps_tagByte h
    exact hkept
  · exact transfer_fbRead p _ 0
  · rfl

end Sys2Proof.Proofs
end

section
/-! PROOFS. The statuses: a command either answers OK or is turned away with no effect but its response, which status each
command ends with, what is recorded of a programming error, and that nothing stops a legal block
(60_exceptions.md R130 to R143). -/

namespace Sys2Proof.Proofs

open Sys2Proof.Machine Sys2Proof.Laws

variable {cmd data : Word} {s t : State}

/-! ## OK, or turned away -/

/-- A command answers OK over a state with the fault record of the state before, or is turned away with another status. -/
theorem exec_ok_or_raise {i : Instr} (h : exec i s = .next t) :
    (∃ bytes ch u, t = finish bytes .ok ch u ∧ u.faultRecord = s.faultRecord) ∨ ∃ st, st ≠ .ok ∧ t = raise st s := by
  rcases exec_cases h with ⟨_, _, -, -, rfl⟩ | ⟨_, -, rfl⟩ | ⟨_, _, -, rfl⟩ | ⟨_, _, -, -, rfl⟩ |
    ⟨_, _, _, -, -, -, -, -, rfl⟩ | ⟨st, hst, -, rfl⟩
  case inr.inr.inr.inr.inr => exact .inr ⟨st, hst, rfl⟩
  all_goals exact .inl ⟨_, _, _, rfl, rfl⟩

theorem acceptCommand_ok_or_raise (h : acceptCommand cmd data s = .next t) :
    (∃ bytes ch u, t = finish bytes .ok ch u ∧ u.faultRecord = s.faultRecord) ∨ ∃ st, st ≠ .ok ∧ t = raise st s := by
  rcases acceptCommand_eq_next h with ⟨i, -, h⟩ | rfl
  · exact exec_ok_or_raise h
  · exact .inr ⟨.illegal, nofun, rfl⟩

/-- A response with another status than OK is that of a word turned away with this status. -/
theorem acceptCommand_eq_raise {r : Response} (h : acceptCommand cmd data s = .next t) (hr : t.pendingResponse = some r)
    (hst : r.status ≠ .ok) : t = raise r.status s ∧ r = ⟨r.status, false, s.phase⟩ := by
  rcases acceptCommand_ok_or_raise h with ⟨_, _, _, rfl, -⟩ | ⟨st, -, rfl⟩ <;> cases hr
  · exact absurd rfl hst
  · exact ⟨rfl, rfl⟩

/-- Settles O46: a word with another status than OK is turned away, and that writes no state element. -/
theorem failedCommandWritesNothing : Obligations.FailedCommandWritesNothing := by
  intro cmd data s t r h hr hst
  obtain ⟨ht, hresp⟩ := acceptCommand_eq_raise h hr hst
  rw [ht, hresp]
  exact ⟨sameBlock_raise _ s, rfl, rfl, rfl, rfl, rfl, rfl⟩

/-! ## The fault record -/

theorem transfer_faultRecord (p : Pins) (s : State) : (transfer p s).faultRecord = s.faultRecord := by
  rcases transfer_cases p s with ⟨_, _, -, -, e⟩ | ⟨_, -, -, -, e⟩ | e <;> rw [e] <;> rfl

/-- An accepted word keeps the error already on record. -/
theorem acceptCommand_keeps_fault {e : Status} (he : s.faultRecord = some e) (h : acceptCommand cmd data s = .next t) :
    t.faultRecord = some e := by
  rcases acceptCommand_ok_or_raise h with ⟨_, _, u, rfl, hu⟩ | ⟨st, -, rfl⟩
  · exact hu.trans he
  · rw [raise_faultRecord, he, recordFault_keeps]

/-- Settles O52: of the four things a step can do none clears the record, and a word turned away for a programming error
leaves one there. -/
theorem faultRecordIsNeverCleared : Obligations.FaultRecordIsNeverCleared := by
  refine ⟨fun s t e he h => ?_, fun cmd data s t r h hr hst => ?_⟩
  · obtain ⟨p, rest, ⟨-, -, rfl⟩ | ⟨-, -, -, -, h⟩ | ⟨-, rfl⟩ | rfl⟩ := step_eq_next h
    · exact he
    · exact acceptCommand_keeps_fault (s := { s with inputs := rest }) he h
    · exact (transfer_faultRecord p _).trans he
    · exact he
  · have herror : r.status.isHostError = true := by rcases hst with hst | hst | hst <;> rw [hst] <;> rfl
    have hne : r.status ≠ .ok := fun hok => by simp [hok, Status.isHostError] at herror
    obtain ⟨ht, -⟩ := acceptCommand_eq_raise h hr hne
    rw [ht, raise_faultRecord]
    exact recordFault_ne_none herror _

/-! ## Which status -/

/-- The status a command ends with, checked in the order of 60_exceptions.md R132. -/
def commandStatus (s : State) : Instr → Status
  | .anWriteDigit pos _ val => if 8 ≤ pos ∨ 9 < val then .bounds else .ok
  | .anWriteAscii pos _ val => if 8 ≤ pos ∨ 127 < val then .bounds else .ok
  | .fbConfigure w h => if (⟨w, h⟩ : Geometry) ∈ s.params.raw.geoms then .ok else .construction
  | .fbSetPixel x y _ =>
    if s.cfgValid = false then .notConfigured
    else if x < s.cfgW.toNat ∧ y < s.cfgH.toNat then .ok else .bounds
  | .fbSerialize => if s.cfgValid = false then .notConfigured else .ok
  | _ => .ok

/-- The status in the response of an executed command. -/
theorem exec_status {i : Instr} (h : exec i s = .next t) :
    ∃ r : Response, t.pendingResponse = some r ∧ r.status = commandStatus s i := by
  cases i with
  | fsmCheck =>
    obtain ⟨_, _, rfl⟩ := exec_fsmCheck_finishes h
    exact ⟨_, rfl, rfl⟩
  | anWriteDigit pos dp val =>
    by_cases hout : 8 ≤ pos ∨ 9 < val
    · cases (exec_anWriteDigit_outOfRange hout dp s).symm.trans h
      exact ⟨_, rfl, (if_pos hout).symm⟩
    · obtain ⟨hp, hv⟩ : pos < 8 ∧ val ≤ 9 := by omega
      cases (exec_anWriteDigit_inRange hp hv dp s).symm.trans h
      exact ⟨_, rfl, (if_neg hout).symm⟩
  | anWriteAscii pos dp val =>
    by_cases hout : 8 ≤ pos ∨ 127 < val
    · cases (exec_anWriteAscii_outOfRange hout dp s).symm.trans h
      exact ⟨_, rfl, (if_pos hout).symm⟩
    · obtain ⟨hp, hv⟩ : pos < 8 ∧ val ≤ 127 := by omega
      cases (exec_anWriteAscii_inRange hp hv dp s).symm.trans h
      exact ⟨_, rfl, (if_neg hout).symm⟩
  | fbConfigure w g =>
    by_cases hg : (⟨w, g⟩ : Geometry) ∈ s.params.raw.geoms
    · cases (exec_fbConfigure_supported hg).symm.trans h
      exact ⟨_, rfl, (if_pos hg).symm⟩
    · cases (exec_fbConfigure_unsupported hg).symm.trans h
      exact ⟨_, rfl, (if_neg hg).symm⟩
  | fbSetPixel x y c =>
    cases hv : s.cfgValid with
    | false =>
      cases (exec_fbSetPixel_unconfigured hv x y c).symm.trans h
      exact ⟨_, rfl, by simp [commandStatus, hv]⟩
    | true =>
      by_cases hxy : x < s.cfgW.toNat ∧ y < s.cfgH.toNat
      · obtain rfl := exec_fbSetPixel_eq_next hv hxy.1 hxy.2 h
        exact ⟨_, rfl, by simp [commandStatus, hv, hxy]⟩
      · cases (exec_fbSetPixel_outside hv hxy c).symm.trans h
        exact ⟨_, rfl, by simp [commandStatus, hv, hxy]⟩
  | fbSerialize =>
    rcases fbSerialize_eq_next h with ⟨hv, rfl⟩ | ⟨hv, rfl⟩ <;> exact ⟨_, rfl, by simp [commandStatus, hv]⟩
  | _ =>
    cases h
    exact ⟨_, rfl, rfl⟩

/-- ILLEGAL is the decoder's answer and no command's. -/
theorem commandStatus_ne_illegal (s : State) (i : Instr) : commandStatus s i ≠ .illegal := by
  cases i <;> simp [commandStatus, ite_eq_iff, -ite_eq_left_iff, -ite_eq_right_iff]

theorem commandStatus_eq_bounds_iff {i : Instr} : commandStatus s i = .bounds ↔
    (∃ pos dp val, i = .anWriteDigit pos dp val ∧ (8 ≤ pos ∨ 9 < val)) ∨
    (∃ pos dp val, i = .anWriteAscii pos dp val ∧ (8 ≤ pos ∨ 127 < val)) ∨
    ∃ x y c, i = .fbSetPixel x y c ∧ s.cfgValid = true ∧ ¬(x < s.cfgW.toNat ∧ y < s.cfgH.toNat) := by
  cases i <;> simp [commandStatus, ite_eq_iff, -ite_eq_left_iff, -ite_eq_right_iff]

theorem commandStatus_eq_construction_iff {i : Instr} : commandStatus s i = .construction ↔
    ∃ w h, i = .fbConfigure w h ∧ (⟨w, h⟩ : Geometry) ∉ s.params.raw.geoms := by
  cases i <;> simp [commandStatus, ite_eq_iff, -ite_eq_left_iff, -ite_eq_right_iff]

theorem commandStatus_eq_notConfigured_iff {i : Instr} : commandStatus s i = .notConfigured ↔
    s.cfgValid = false ∧ (i = .fbSerialize ∨ ∃ x y c, i = .fbSetPixel x y c) := by
  cases i <;> simp [commandStatus, ite_eq_iff, -ite_eq_left_iff, -ite_eq_right_iff]

/-- Only the codes 0 to 4 are returned. -/
theorem status_code_lt (st : Status) : st.code.toNat < 5 := by cases st <;> decide

/-- Settles O47: a word that is not decoded ends with ILLEGAL, and one that is with the status of its command, which is
never ILLEGAL. -/
theorem statusesAndTheirCommands : Obligations.StatusesAndTheirCommands := by
  refine ⟨⟨rfl, rfl, rfl, rfl, rfl⟩, fun cmd data s t h => ?_⟩
  rcases acceptCommand_cases cmd data s with ⟨i, hi, e⟩ | ⟨_, hi, e⟩
  · obtain ⟨r, hr, hst⟩ := exec_status (e.symm.trans h)
    refine ⟨r, hr, status_code_lt _, ?_⟩
    simp only [hst, hi, Except.ok.injEq, reduceCtorEq, exists_false, commandStatus_ne_illegal,
      commandStatus_eq_bounds_iff, commandStatus_eq_construction_iff, commandStatus_eq_notConfigured_iff, and_self]
  · obtain rfl := Host.Outcome.next.inj (e.symm.trans h)
    refine ⟨_, raise_pendingResponse _ _, status_code_lt _, ?_⟩
    simp [hi]

/-- Settles O48: the decoder comes before the command, and the command checks for a geometry before it looks at the
coordinates. -/
theorem statusPriority : Obligations.StatusPriority := by
  refine ⟨fun _ _ _ s he => acceptCommand_of_decode_error he s, fun x y c _ hv => exec_fbSetPixel_unconfigured hv x y c,
    fun _ => exec_fbSerialize_unconfigured, fun s hv => ?_, fun data s => ?_⟩
  · have hdecode : decode 0xA00100C8#32 0#32 = .ok (.fbSetPixel 200 0 .white) := by decide
    exact (acceptCommand_of_decode hdecode s).trans (exec_fbSetPixel_unconfigured hv 200 0 .white)
  · obtain ⟨_, he⟩ := decode_illegal (cmd := 0xA0031000#32) (.inr (.inr ⟨rfl, rfl⟩)) data
    exact acceptCommand_of_decode_error he s

/-- Settles O50: FSM_CHECK answers OK with a transition and without one, and the other five have no check to fail. -/
theorem sixCommandsAlwaysAnswerOk : Obligations.SixCommandsAlwaysAnswerOk := by
  intro temp val s i hi
  simp only [List.mem_cons, List.not_mem_nil, or_false] at hi
  rcases hi with rfl | rfl | rfl | rfl | rfl | rfl
  · cases hq : nextPhase s.params s.phase temp with
    | some q => exact ⟨_, _, exec_fsmCheck_transition hq, rfl, rfl⟩
    | none => exact ⟨_, _, exec_fsmCheck_noTransition hq, rfl, rfl⟩
  all_goals exact ⟨_, _, rfl, rfl, rfl⟩

/-! ## The one stop -/

/-- FB_SET_PIXEL stops on a pixel in bounds whose index has no byte (20_memory.md R40, log 9). -/
theorem exec_fbSetPixel_noByte {x y : Nat} (hv : s.cfgValid = true) (hx : x < s.cfgW.toNat) (hy : y < s.cfgH.toNat)
    (hi : fbBytes s.params ≤ pixelIndex s.cfgW x y) (c : Color) :
    exec (.fbSetPixel x y c) s = .fault .fbIndexOutside := by
  simp only [exec, execFbSetPixel, hv, if_true, inBounds_iff.mpr ⟨hx, hy⟩, fbModify_eq_none.mpr hi]

/-- An accepted word is answered, or is FB_SET_PIXEL on a pixel in bounds whose index has no byte. -/
theorem acceptCommand_next_or_fault (cmd data : Word) (s : State) :
    (∃ t, acceptCommand cmd data s = .next t) ∨
    (acceptCommand cmd data s = .fault .fbIndexOutside ∧ ∃ x y c, decode cmd data = .ok (.fbSetPixel x y c) ∧
      s.cfgValid = true ∧ x < s.cfgW.toNat ∧ y < s.cfgH.toNat ∧ fbBytes s.params ≤ pixelIndex s.cfgW x y) := by
  rcases acceptCommand_cases cmd data s with ⟨i, hi, e⟩ | ⟨_, -, e⟩
  · rw [e]
    by_cases hnext : ∃ t, exec i s = .next t
    · exact .inl hnext
    · obtain ⟨x, y, c, rfl, hv, hb, hsize, hfault⟩ := exec_not_next (not_exists.mp hnext)
      obtain ⟨hx, hy⟩ := inBounds_iff.mp hb
      exact .inr ⟨hfault, x, y, c, hi, hv, hx, hy, hsize⟩
  · exact .inl ⟨_, e⟩

/-- Of the edges only one that accepts a command can fail to be answered. -/
theorem step_next_or_accepts (s : State) : (∃ t, step s = .next t) ∨
    ∃ p rest, s.inputs = p :: rest ∧ p.rst = false ∧ p.cmdValid = true ∧ s.busy = false ∧
      step s = acceptCommand p.cmd p.cmdData { s with inputs := rest } := by
  rcases step_eq s with ⟨p, rest, hs, hstep⟩ | ⟨-, hstep⟩ <;> rw [hstep]
  · rcases clockEdge_cases p { s with inputs := rest } with ⟨-, e⟩ | ⟨hr, hb, hv, e⟩ | ⟨-, -, -, e⟩ | ⟨-, -, e⟩
    · exact .inl ⟨_, e⟩
    · exact .inr ⟨p, rest, hs, hr, hv, hb, e⟩
    · exact .inl ⟨_, e⟩
    · exact .inl ⟨_, e⟩
  · rcases clockEdge_cases Pins.idle s with ⟨-, e⟩ | ⟨-, -, hv, -⟩ | ⟨-, -, -, e⟩ | ⟨-, -, e⟩
    · exact .inl ⟨_, e⟩
    · exact nomatch hv
    · exact .inl ⟨_, e⟩
    · exact .inl ⟨_, e⟩

/-- In a legal state every accepted word is answered, for every pixel in bounds has its byte (20_memory.md R46). -/
theorem legal_acceptCommand_next (hs : s.Legal) (cmd data : Word) : ∃ t, acceptCommand cmd data s = .next t := by
  refine (acceptCommand_next_or_fault cmd data s).resolve_right ?_
  rintro ⟨-, x, y, c, -, hv, hx, hy, hi⟩
  exact absurd (pixelIndex_lt_fbBytes hs hv hx hy) (Nat.not_lt.mpr hi)

/-- Settles O16: an edge that accepts no command is always answered, and one that does as the accepted word is. -/
theorem legalStepAlwaysAnswersNext : Obligations.LegalStepAlwaysAnswersNext := by
  refine ⟨fun s hs => ?_, fun s => ?_, fun _ _ c _ hv hx hy hi => exec_fbSetPixel_noByte hv hx hy hi c⟩ <;>
    rcases step_next_or_accepts s with hnext | ⟨p, rest, hin, hr, hv, hb, hstep⟩
  · exact hnext
  · rw [hstep]
    exact legal_acceptCommand_next (s := { s with inputs := rest }) { hs with } _ _
  · exact .inl hnext
  · rw [hstep]
    exact (acceptCommand_next_or_fault _ _ _).imp_right fun ⟨hfault, x, y, c, hpixel⟩ =>
      ⟨hfault, p, rest, x, y, c, hin, hr, hv, hb, hpixel⟩

end Sys2Proof.Proofs
end

section
/-! PROOFS. Reset and the duties at the ports: the state after reset, a reset edge from any state, an output nobody takes,
and an offer held until the block is ready (70_reset_and_hazards.md R150, R151, R155, R156). -/

namespace Sys2Proof.Proofs

open Sys2Proof.Machine Sys2Proof.Laws

/-! ## Reset -/

/-- Right after reset every byte of `FB` reads as its reset content. -/
theorem fbRead_resetWith (P : Params) (a : Nat) : (State.resetWith P).fbRead a = fbUnlisted P.raw.fbTag a := by
  rw [fbRead_eq, resetWith_fb, read_nil, resetWith_params]

/-- Settles O12: the fields are those of the definition, and `FB` and the offers are read from them. -/
theorem resetValues : Obligations.ResetValues := by
  refine ⟨reset_eq, fun P => ?_⟩
  obtain ⟨hout, hrsp⟩ := offers_ready (resetWith_busy P)
  refine ⟨rfl, rfl, rfl, fun k => ?an, fbRead_resetWith P 0, fun a ha _ => ?pixels, rfl, rfl, rfl, rfl, rfl, ?out, ?rsp⟩
  case an => simp
  case pixels => rw [fbRead_resetWith, fbUnlisted_pixel _ ha]
  case out => rw [State.outValid, hout, Option.isSome_none]
  case rsp => rw [State.rspValid, hrsp, Option.isSome_none]

/-- Settles O13: a reset edge, of a busy block too, is the reset state of the block's own configuration but for the edges
to come and the logs. -/
theorem resetEdgeSetsEveryElement : Obligations.ResetEdgeSetsEveryElement := by
  intro s p rest hs hr
  obtain ⟨hparams, hphase, -, han, htag, hpixels, hvalid, hw, hh, hbusy, hready, hout, hrsp⟩ := resetValues.2 s.params
  have hstep : step s = .next (resetEdge { s with inputs := rest }) := (step_of_inputs hs).trans (clockEdge_reset hr _)
  exact ⟨_, hstep, hparams, hphase, han, htag, hpixels, hvalid, hw, hh, hbusy, hready, hout, hrsp, rfl, rfl, rfl, rfl, rfl⟩

/-- Settles O14: every configuration's reset state is legal, the free one's among them. -/
theorem resetIsLegal : Obligations.ResetIsLegal :=
  ⟨legal_resetWith Config.params, legal_resetWith⟩

/-! ## An output nobody takes -/

/-- An edge at which nobody takes what is on offer transfers nothing (70_reset_and_hazards.md R156). -/
theorem transfer_untaken {p : Pins} {s : State} (hout : s.pendingBytes ≠ [] → p.outReady = false)
    (hrsp : s.pendingBytes = [] → p.rspReady = false) : transfer p s = s := by
  rcases transfer_cases p s with ⟨b, rest, hb, htaken, -⟩ | ⟨r, hb, -, htaken, -⟩ | e
  · have hleft : s.pendingBytes ≠ [] := hb ▸ List.cons_ne_nil b rest
    exact absurd htaken (Bool.eq_false_iff.mp (hout hleft))
  · exact absurd htaken (Bool.eq_false_iff.mp (hrsp hb))
  · exact e

/-- Settles O57, by induction on the edges: each uses up its own inputs and nothing else. -/
theorem untakenOutputHoldsTheBlock : Obligations.UntakenOutputHoldsTheBlock := by
  intro edges rest s hb hs huntaken
  induction edges generalizing s with
  | nil =>
    obtain rfl : s.inputs = rest := hs
    exact run_zero s
  | cons p edges ih =>
    obtain ⟨⟨hr, hout, hrsp⟩, huntaken⟩ := List.forall_mem_cons.mp huntaken
    have hstep : step s = .next { s with inputs := edges ++ rest } :=
      (step_transfers hs hb hr).trans
        (congrArg _ (transfer_untaken (s := { s with inputs := edges ++ rest }) hout hrsp))
    exact (run_succ_of_step _ hstep).trans (ih { s with inputs := edges ++ rest } hb rfl huntaken)

/-! ## An offer held until the block is ready -/

theorem transfer_inputs (p : Pins) (s : State) : (transfer p s).inputs = s.inputs := by
  rcases transfer_cases p s with ⟨_, _, -, -, e⟩ | ⟨_, -, -, -, e⟩ | e <;> rw [e] <;> rfl

/-- What the host's duty asks of two edges to come (70_reset_and_hazards.md R155). -/
theorem hostHolds_iff {s : State} {p q : Pins} {rest : List Pins} (hs : s.inputs = p :: q :: rest) :
    s.hostHolds ↔ (p.rst = false → p.cmdValid = true → s.cmdReady = false → q.cmdValid = true →
      q.cmd = p.cmd ∧ q.cmdData = p.cmdData) := by
  simp only [State.hostHolds, hs]

/-- At an edge without reset and without an offer a ready block uses up the edge's inputs and nothing else. -/
theorem step_unoffered {s : State} {p : Pins} {rest : List Pins} (hs : s.inputs = p :: rest) (hb : s.busy = false)
    (hr : p.rst = false) (hv : p.cmdValid = false) : step s = .next { s with inputs := rest } :=
  (step_of_inputs hs).trans (onlyAReadyBlockAcceptsAnOffer.2 { s with inputs := rest } p hb hr hv)

/-- Settles O59: the first edge only transfers, so the second is the next one of a ready block, and what it accepts are the
words it offers, which the host has held. -/
theorem heldOfferIsTheOneAccepted : Obligations.HeldOfferIsTheOneAccepted := by
  intro s t p q rest hs hholds hpr hpv hbusy hqr hstep hready
  rw [step_transfers hs hbusy hpr, Host.Outcome.next.injEq] at hstep
  have htin : t.inputs = q :: rest := hstep ▸ transfer_inputs p _
  have htb : t.busy = false := by simpa [State.cmdReady] using hready
  have hnotReady : s.cmdReady = false := by rw [State.cmdReady, hbusy, Bool.not_true]
  refine ⟨fun hqv => ?_, step_unoffered htin htb hqr⟩
  obtain ⟨hcmd, hdata⟩ := (hostHolds_iff hs).mp hholds hpr hpv hnotReady hqv
  rw [step_accepts htin htb hqr hqv, hcmd, hdata]

end Sys2Proof.Proofs
end
